-- ==== Sys2Proof/Word.lean ====
section
/-! DEFINITION. The two kinds of value of the machine: integers without a width, and lines of text.

The value domain of every register but `IR`, of every numeric operand and of every numeric cell is ℤ, with no width, no
overflow and no wrap-around (00_scope.md R5, R6): Lean's `Int`, written as such everywhere. -/

namespace Sys2Proof

/-- A line of text: a finite sequence of Unicode scalar values (30_encoding.md R61). A cell holds one (20_memory.md R40). -/
abbrev Line := List Char

/-- A token: a run of characters of a line (30_encoding.md R62). -/
abbrev Token := List Char

end Sys2Proof
end

