-- ==== Sys2Proof/Machine/Text.lean ====
section
/-! DEFINITION. Text primitives: characters and tokens (30_encoding.md R61, R62) and decimal text (00_scope.md R8). -/

namespace Sys2Proof.Machine

/-- Whitespace is the space and the horizontal tab (30_encoding.md R61). -/
def isSpace (c : Char) : Bool := c == ' ' || c == '\t'

/-- A line terminator, which no line contains (30_encoding.md R61). DESIGN CHOICE: the spec does not list them; the model takes line
feed and carriage return (log 7). -/
def isLineEnd (c : Char) : Bool := c == '\n' || c == '\r'

/-- A text that is a line: it holds no line terminator (30_encoding.md R61). -/
def isLine (l : Line) : Bool := l.all (fun c => !isLineEnd c)

/-- Whether a token starts at the first character of the text. -/
def startsToken : Line → Bool
  | [] => false
  | c :: _ => !isSpace c

/-- Put a character in front of the first token, or make it a token of its own. -/
def glueChar (c : Char) (joined : Bool) (ts : List Token) : List Token :=
  match joined, ts with
  | true, t :: rest => (c :: t) :: rest
  | true, [] => [[c]]
  | false, rest => [c] :: rest

/-- The maximal runs of non-whitespace characters, left to right (30_encoding.md R62). -/
def tokens : Line → List Token
  | [] => []
  | c :: cs => if isSpace c then tokens cs else glueChar c (startsToken cs) (tokens cs)

/-- The digits are `0` to `9`, U+0030 to U+0039 (30_encoding.md R61). -/
def isDigit (c : Char) : Bool := 48 ≤ c.toNat && c.toNat ≤ 57

/-- Whether a token begins with `-`. -/
def hasMinus : Token → Bool
  | [] => false
  | c :: _ => c == '-'

/-- A token without its optional leading `-`. -/
def unsignedPart (t : Token) : Token := if hasMinus t then t.tail else t

/-- One or more digits and nothing else. -/
def isDigits (ds : Line) : Bool := !ds.isEmpty && ds.all isDigit

/-- `isInt(t)`: an optional single `-` followed by one or more digits and nothing else (00_scope.md R8). -/
def isInt (t : Token) : Bool := isDigits (unsignedPart t)

/-- The number a digit stands for. -/
def digitVal (c : Char) : Nat := c.toNat - 48

/-- The number a digit string denotes in base ten, most significant digit first (00_scope.md R8). -/
def natOf (ds : Line) : Nat := ds.foldl (fun n c => 10 * n + digitVal c) 0

/-- `intOf(t)`: the integer a token with `isInt` denotes (00_scope.md R8). -/
def intOf (t : Token) : Int := if hasMinus t then -(natOf (unsignedPart t) : Int) else (natOf (unsignedPart t) : Int)

/-- The digit of a number below ten. -/
def digitChar (d : Nat) : Char := Char.ofNat (48 + d)

/-- The decimal digits of `n`, no leading zero; the first argument bounds the number of digits after the first. -/
def digitsOf : Nat → Nat → Line
  | 0, n => [digitChar (n % 10)]
  | k + 1, n => if n < 10 then [digitChar n] else digitsOf k (n / 10) ++ [digitChar (n % 10)]

/-- The decimal text of a natural number; it has at most `log2 n + 1` digits. -/
def decNat (n : Nat) : Line := digitsOf (Nat.log2 n) n

/-- `dec(v)`: the canonical decimal text of an integer (00_scope.md R8). -/
def dec (v : Int) : Line := if v < 0 then '-' :: decNat v.natAbs else decNat v.natAbs

end Sys2Proof.Machine
end

