-- ==== Sys2Proof/Syntax.lean ====
section
/-! DEFINITION. The instructions as syntax: one constructor of `Instr` per row of spec/opcode_table.json, with the
operand forms of 30_encoding.md R63, R71 and R73; the mnemonics; the line classes of R64. -/

namespace Sys2Proof

/-- The closed enumeration of opcodes, in the order of the table (30_encoding.md R63, R75). -/
inductive Mnemonic where
  | LOM | STO | ADD | SUB | MUL | AND | OR | XOR | NOT | INR | INP | OUT | JUM | JUZ | FIN
  deriving DecidableEq, Repr

/-- The operand of a jump: a numeric address or a label name (30_encoding.md R71, format `J` of R63). -/
inductive Target where
  /-- A numeric operand, used as it stands. -/
  | addr (a : Int)
  /-- A symbolic operand: a label name, looked up in the symbol table. -/
  | label (name : Token)
  deriving DecidableEq, Repr

/-- A decoded instruction line. Format `M` carries the address of a cell, format `J` a jump target, format `Z` the
surplus numeric operand if the line has one (30_encoding.md R63, R73). -/
inductive Instr where
  | lom (a : Int)
  | sto (a : Int)
  | add (a : Int)
  | sub (a : Int)
  | mul (a : Int)
  | and (a : Int)
  | or (a : Int)
  | xor (a : Int)
  | not (surplus : Option Int)
  | inr (surplus : Option Int)
  | inp (surplus : Option Int)
  | out (surplus : Option Int)
  | jum (t : Target)
  | juz (t : Target)
  | fin (surplus : Option Int)
  deriving DecidableEq, Repr

/-- The seven classes of a line (30_encoding.md R64). -/
inductive LineClass where
  | empty
  | comment (line : Line)
  | label (name : Token)
  | data (v : Int)
  | dataJunk (line : Line)
  | instr (m : Mnemonic) (args : List Token)
  | bad (line : Line)
  deriving DecidableEq, Repr

/-- Why the decoder fails (30_encoding.md R69, R72 to R74). -/
inductive DecodeError where
  /-- The first token is in no class that may be executed (R69), or the line has no token (R70, 40_step_cycle.md R95). -/
  | invalidOpcode
  /-- The operand tokens are unusable: missing, two or more, or a label name where a number is needed (R73, R74). -/
  | invalidOperand
  /-- A jump names a label that is not in the symbol table (R74). -/
  | unresolvedLabel
  deriving DecidableEq, Repr

/-- What a fetched line asks of the engine (30_encoding.md R77): pass over it, execute an instruction, or fault. -/
inductive Fetched where
  | skip
  | run (i : Instr)
  | reject (e : DecodeError)
  deriving DecidableEq, Repr

/-- The decoded bundle of 30_encoding.md R75, `(op[3:0], has_opnd, opnd)`; `has_opnd` is whether `opnd` is present. -/
structure Bundle where
  op : BitVec 4
  opnd : Option Int
  deriving DecidableEq, Repr

/-- The symbol table: label name to cell index (10_state.md R23). -/
abbrev SymbolTable := List (Token × Nat)

/-- The mnemonic of an instruction. -/
def Instr.mnemonic : Instr → Mnemonic
  | .lom _ => .LOM
  | .sto _ => .STO
  | .add _ => .ADD
  | .sub _ => .SUB
  | .mul _ => .MUL
  | .and _ => .AND
  | .or _ => .OR
  | .xor _ => .XOR
  | .not _ => .NOT
  | .inr _ => .INR
  | .inp _ => .INP
  | .out _ => .OUT
  | .jum _ => .JUM
  | .juz _ => .JUZ
  | .fin _ => .FIN

end Sys2Proof
end

