-- ==== Sys2Proof/WellFormed.lean ====
section
/-! DEFINITION. Which terms of `Instr` some line encodes: a label operand is one token that is not an integer
(30_encoding.md R71, R79: `name`). Every numeric operand is well formed, in range or not (R71). -/

namespace Sys2Proof

/-- A token that can stand as a symbolic operand in a line: not empty, no whitespace, no line terminator, not an
integer (30_encoding.md R61, R62, R71). -/
def wfName (t : Token) : Bool :=
  !t.isEmpty && t.all (fun c => !Machine.isSpace c) && Machine.isLine t && !Machine.isInt t

/-- A well-formed jump target. -/
def Target.wf : Target → Bool
  | .addr _ => true
  | .label n => wfName n

/-- A well-formed instruction: one that some line of text encodes. -/
def Instr.wf : Instr → Bool
  | .lom _ => true
  | .sto _ => true
  | .add _ => true
  | .sub _ => true
  | .mul _ => true
  | .and _ => true
  | .or _ => true
  | .xor _ => true
  | .not _ => true
  | .inr _ => true
  | .inp _ => true
  | .out _ => true
  | .jum t => t.wf
  | .juz t => t.wf
  | .fin _ => true

end Sys2Proof
end

