-- ==== Sys2Proof/Decode.lean ====
section
/-! DEFINITION. The decoder: lines to instructions (30_encoding.md), total on every text, and after it the encoder. -/

namespace Sys2Proof

open Machine

/-- The spelling of a mnemonic (30_encoding.md R63). -/
def Mnemonic.text : Mnemonic → Token
  | .LOM => ['L', 'O', 'M']
  | .STO => ['S', 'T', 'O']
  | .ADD => ['A', 'D', 'D']
  | .SUB => ['S', 'U', 'B']
  | .MUL => ['M', 'U', 'L']
  | .AND => ['A', 'N', 'D']
  | .OR => ['O', 'R']
  | .XOR => ['X', 'O', 'R']
  | .NOT => ['N', 'O', 'T']
  | .INR => ['I', 'N', 'R']
  | .INP => ['I', 'N', 'P']
  | .OUT => ['O', 'U', 'T']
  | .JUM => ['J', 'U', 'M']
  | .JUZ => ['J', 'U', 'Z']
  | .FIN => ['F', 'I', 'N']

/-- The opcode table: every mnemonic, in the order of its number (30_encoding.md R63, R75). -/
def opcodeTable : List Mnemonic :=
  [.LOM, .STO, .ADD, .SUB, .MUL, .AND, .OR, .XOR, .NOT, .INR, .INP, .OUT, .JUM, .JUZ, .FIN]

/-- Look a token up in the opcode table: an exact, case-sensitive match (30_encoding.md R61, R63). -/
def mnemonicOf (t : Token) : Option Mnemonic := opcodeTable.find? (fun m => m.text == t)

/-- The opcode number `op[3:0]` (30_encoding.md R75). -/
def Mnemonic.number : Mnemonic → BitVec 4
  | .LOM => 0
  | .STO => 1
  | .ADD => 2
  | .SUB => 3
  | .MUL => 4
  | .AND => 5
  | .OR => 6
  | .XOR => 7
  | .NOT => 8
  | .INR => 9
  | .INP => 10
  | .OUT => 11
  | .JUM => 12
  | .JUZ => 13
  | .FIN => 14

/-- The mnemonic of an opcode number; 15 is unassigned (30_encoding.md R75). -/
def mnemonicOfNumber (op : BitVec 4) : Option Mnemonic := opcodeTable.find? (fun m => m.number == op)

/-- A first token that starts a comment (30_encoding.md R65). -/
def isCommentToken : Token → Bool
  | [] => false
  | c :: _ => c == '#'

/-- A token that is a label definition: it ends in `:` and has at least one character before that (30_encoding.md R66). -/
def isLabelToken (t : Token) : Bool := t.getLast? == some ':' && 2 ≤ t.length

/-- `classify(line)`: the seven line classes, in this order of tests (30_encoding.md R64). -/
def classify (line : Line) : LineClass :=
  match tokens line with
  | [] => .empty
  | t :: args =>
    if isCommentToken t then .comment line
    else if args.isEmpty && isLabelToken t then .label t.dropLast
    else if isInt t then (if args.isEmpty then .data (intOf t) else .dataJunk line)
    else
      match mnemonicOf t with
      | some m => .instr m args
      | none => .bad line

/-- `dataValue(line)`: the integer of a line of class `Data`; no other line has one (20_memory.md R44). -/
def dataValue (line : Line) : Option Int :=
  match classify line with
  | .data v => some v
  | .empty => none
  | .comment _ => none
  | .label _ => none
  | .dataJunk _ => none
  | .instr _ _ => none
  | .bad _ => none

/-- Decode the operand tokens of a format `M` line: exactly one, numeric (30_encoding.md R72 to R74). -/
def decodeAddr (args : List Token) (mk : Int → Instr) : Except DecodeError Instr :=
  match args with
  | [] => .error .invalidOperand
  | [t] => if isInt t then .ok (mk (intOf t)) else .error .invalidOperand
  | _ :: _ :: _ => .error .invalidOperand

/-- Decode the operand tokens of a format `J` line: exactly one, a number if it is one, else a label name
(30_encoding.md R71 to R74). The lookup of the name is `resolveTarget` (log 12). -/
def decodeTarget (args : List Token) (mk : Target → Instr) : Except DecodeError Instr :=
  match args with
  | [] => .error .invalidOperand
  | [t] => .ok (mk (if isInt t then .addr (intOf t) else .label t))
  | _ :: _ :: _ => .error .invalidOperand

/-- Decode the operand tokens of a format `Z` line: none, or one surplus number (30_encoding.md R73 (b)). -/
def decodeSurplus (args : List Token) (mk : Option Int → Instr) : Except DecodeError Instr :=
  match args with
  | [] => .ok (mk none)
  | [t] => if isInt t then .ok (mk (some (intOf t))) else .error .invalidOperand
  | _ :: _ :: _ => .error .invalidOperand

/-- Decode the operand tokens of an `Instr` line (30_encoding.md R72), all but the lookup of a label. -/
def decodeInstr (m : Mnemonic) (args : List Token) : Except DecodeError Instr :=
  match m with
  | .LOM => decodeAddr args .lom
  | .STO => decodeAddr args .sto
  | .ADD => decodeAddr args .add
  | .SUB => decodeAddr args .sub
  | .MUL => decodeAddr args .mul
  | .AND => decodeAddr args .and
  | .OR => decodeAddr args .or
  | .XOR => decodeAddr args .xor
  | .NOT => decodeSurplus args .not
  | .INR => decodeSurplus args .inr
  | .INP => decodeSurplus args .inp
  | .OUT => decodeSurplus args .out
  | .JUM => decodeTarget args .jum
  | .JUZ => decodeTarget args .juz
  | .FIN => decodeSurplus args .fin

/-- What a line asks of the engine when it is fetched (30_encoding.md R77; 40_step_cycle.md R93 to R96). -/
def decodeFetched (line : Line) : Fetched :=
  match classify line with
  | .label _ => .skip
  | .comment _ => .skip
  | .data _ => .skip
  | .dataJunk _ => .skip
  | .empty => .reject .invalidOpcode
  | .bad _ => .reject .invalidOpcode
  | .instr m args =>
    match decodeInstr m args with
    | .ok i => .run i
    | .error e => .reject e

/-- Look a label up in the symbol table (10_state.md R23). -/
def lookupLabel (sym : SymbolTable) (name : Token) : Option Nat :=
  match sym with
  | [] => none
  | (n, a) :: rest => if n = name then some a else lookupLabel rest name

/-- The resolved integer value of a jump operand (30_encoding.md R71, R74). -/
def resolveTarget (sym : SymbolTable) : Target → Option Int
  | .addr a => some a
  | .label n => (lookupLabel sym n).map Int.ofNat

/-- The operand of an instruction as the decoder hands it over: absent, or its resolved integer value; a jump whose
label is unknown fails (30_encoding.md R71, R72). -/
def operandValue (sym : SymbolTable) : Instr → Except DecodeError (Option Int)
  | .lom a => .ok (some a)
  | .sto a => .ok (some a)
  | .add a => .ok (some a)
  | .sub a => .ok (some a)
  | .mul a => .ok (some a)
  | .and a => .ok (some a)
  | .or a => .ok (some a)
  | .xor a => .ok (some a)
  | .not o => .ok o
  | .inr o => .ok o
  | .inp o => .ok o
  | .out o => .ok o
  | .jum t => match resolveTarget sym t with
    | some a => .ok (some a)
    | none => .error .unresolvedLabel
  | .juz t => match resolveTarget sym t with
    | some a => .ok (some a)
    | none => .error .unresolvedLabel
  | .fin o => .ok o

/-- The decoded bundle of an instruction (30_encoding.md R75). -/
def bundleOf (sym : SymbolTable) (i : Instr) : Except DecodeError Bundle :=
  match operandValue sym i with
  | .ok o => .ok ⟨i.mnemonic.number, o⟩
  | .error e => .error e

/-- Whether a mnemonic is one of the ten that require an operand (30_encoding.md R72). -/
def needsOperand : Mnemonic → Bool
  | .LOM | .STO | .ADD | .SUB | .MUL | .AND | .OR | .XOR | .JUM | .JUZ => true
  | .NOT | .INR | .INP | .OUT | .FIN => false

/-- Whether a mnemonic is a jump (30_encoding.md R63). -/
def isJump : Mnemonic → Bool
  | .JUM | .JUZ => true
  | .LOM | .STO | .ADD | .SUB | .MUL | .AND | .OR | .XOR | .NOT | .INR | .INP | .OUT | .FIN => false

/-- `decode(m, args, SYM)` of 30_encoding.md R72, written as its pseudocode stands. The engine decodes in two parts,
`decodeInstr` and `operandValue`; an obligation says that the two parts give this function. -/
def decodeLiteral (sym : SymbolTable) (m : Mnemonic) (args : List Token) : Except DecodeError Bundle :=
  match args with
  | _ :: _ :: _ => .error .invalidOperand
  | [] => if needsOperand m then .error .invalidOperand else .ok ⟨m.number, none⟩
  | [t] =>
    if isInt t then .ok ⟨m.number, some (intOf t)⟩
    else if isJump m then
      match lookupLabel sym t with
      | some a => .ok ⟨m.number, some (Int.ofNat a)⟩
      | none => .error .unresolvedLabel
    else .error .invalidOperand

/-! ## The encoder -/

/-- The token of a jump target. -/
def targetToken : Target → Token
  | .addr a => dec a
  | .label n => n

/-- The operand tokens of an instruction's canonical line (30_encoding.md R78). -/
def argTokens : Instr → List Token
  | .lom a => [dec a]
  | .sto a => [dec a]
  | .add a => [dec a]
  | .sub a => [dec a]
  | .mul a => [dec a]
  | .and a => [dec a]
  | .or a => [dec a]
  | .xor a => [dec a]
  | .not o => (o.map dec).toList
  | .inr o => (o.map dec).toList
  | .inp o => (o.map dec).toList
  | .out o => (o.map dec).toList
  | .jum t => [targetToken t]
  | .juz t => [targetToken t]
  | .fin o => (o.map dec).toList

/-- A mnemonic and operand tokens as a line, one space between tokens. -/
def joinLine (m : Mnemonic) : List Token → Line
  | [] => m.text
  | t :: _ => m.text ++ ' ' :: t

/-- The canonical line of an instruction: its words (30_encoding.md R78, R79). -/
def encode (i : Instr) : Line := joinLine i.mnemonic (argTokens i)

/-- The canonical spelling of one operand token (30_encoding.md R78). -/
def canonicalToken (t : Token) : Token := if isInt t then dec (intOf t) else t

/-- The canonical text of a line (30_encoding.md R78). -/
def canonical (line : Line) : Line :=
  match classify line with
  | .empty => []
  | .data v => dec v
  | .label n => n ++ [':']
  | .instr m args =>
    match args with
    | [] => m.text
    | [t] => m.text ++ ' ' :: canonicalToken t
    | _ :: _ :: _ => line
  | .comment l => l
  | .dataJunk l => l
  | .bad l => l

/-! ## The opcode table's words -/

/-- The line of opcode number `op` with the operand 0 where an operand is required and none elsewhere. -/
def lineOfNumber (op : BitVec 4) : Option Line :=
  match mnemonicOfNumber op with
  | some m => some (joinLine m (if needsOperand m then [dec 0] else []))
  | none => none

/-- The line a table word stands for. The table gives a word the four bits of the field `op`, bits 3..0, and masks the
rest away (mask 15); the operand has no bits there, so it is 0 where one is required (DESIGN CHOICE, log 9). -/
def tableLine (_nbits w : Nat) : Option Line := lineOfNumber (BitVec.ofNat 4 w)

/-- The instruction the decoder reads from the line that a table word stands for. -/
def decodeTableWord (nbits w : Nat) : Option Instr :=
  match tableLine nbits w with
  | some line =>
    match decodeFetched line with
    | .run i => some i
    | .skip => none
    | .reject _ => none
  | none => none

end Sys2Proof
end

