-- ==== Sys2Proof/Config.lean ====
section
/-! DEFINITION. What the implementation fixes: the number of memory cells. The spec leaves no result of an
instruction open, so there is no free value here (INVENTORY.md, "What the manual leaves open"). -/

namespace Sys2Proof

/-- `MEMSIZE`, the number of memory cells (00_scope.md R4): 32 for this hardware. -/
def Config.memSize : Nat := 32

end Sys2Proof
end

