-- ==== Sys2Proof/Machine/State.lean ====
section
/-! DEFINITION. The state of the machine as plain data (10_state.md), the outcomes' reasons, and the state after reset. -/

namespace Sys2Proof.Machine

/-- The six causes a step can raise (60_exceptions.md R180). -/
inductive Cause where
  /-- The fetched line is `Bad` or `Empty` (R181). -/
  | invalidOpcode
  /-- A jump's label is not in the symbol table (R182). -/
  | unresolvedLabel
  /-- The operand tokens of an `Instr` line are unusable (R183). -/
  | invalidOperand
  /-- `PC`, a data address or a jump target is outside memory (R184). -/
  | invalidAddress
  /-- A data read finds a cell with no data value (R185). -/
  | nonNumericCell
  /-- `INP` with `INPR` unset (R188). -/
  | unsetInput
  deriving DecidableEq, Repr

/-- The fault record `(cause, address, line)` (10_state.md R21). -/
structure FaultRecord where
  cause : Cause
  address : Int
  line : Line
  deriving DecidableEq, Repr

/-- `STATE`, the engine's control state (10_state.md R20). -/
inductive EngineState where
  | running
  | finished
  | faulted
  deriving DecidableEq, Repr

/-- Memory: the cells that do not hold the empty line, as (address, line) pairs in strictly rising order of address
(10_state.md R22, 20_memory.md R40). A cell holds a line, not bytes (20_memory.md R48; log 1). -/
abbrev Memory := List (Nat × Line)

/-- Everything the host can read of the engine (50_host_interface.md R169), the same between operations and inside the hook
(R168): the registers, where `none` is `unset` in `inpr` and `outr`, `STATE`, `FAULT` and the memory. -/
structure HostView where
  acc : Int
  pc : Int
  ir : Line
  ar : Int
  dr : Int
  ctr : Int
  inpr : Option Int
  outr : Option Int
  engine : EngineState
  fault : Option FaultRecord
  mem : Memory
  deriving DecidableEq, Repr

/-- The whole state of the machine (10_state.md R10 to R25). -/
structure State where
  /-- The accumulator (R11). -/
  acc : Int
  /-- The program counter (R12). -/
  pc : Int
  /-- The instruction register: the raw text of the line last fetched (R13). -/
  ir : Line
  /-- The address register (R14). -/
  ar : Int
  /-- The data register (R15). -/
  dr : Int
  /-- The repeat counter of `MUL` (R16). -/
  ctr : Int
  /-- The input register; `none` is `unset` (R17). -/
  inpr : Option Int
  /-- The output register; `none` is `unset` (R18). -/
  outr : Option Int
  /-- `STATE` (R20). -/
  engine : EngineState
  /-- `FAULT` (R21). -/
  fault : Option FaultRecord
  /-- The memory cells (R22). -/
  mem : Memory
  /-- The symbol table, fixed at load (R23). -/
  sym : SymbolTable
  /-- The output trace, oldest first (R24). -/
  outTrace : List Int
  /-- Whether an observation hook is configured, fixed for a launch (50_host_interface.md R168; log 4). -/
  hook : Bool
  /-- The model's own record of the hook calls: all that the host can read at each, oldest first (44_io.md R141; log 5). -/
  hookCalls : List HostView
  deriving DecidableEq, Repr

/-- Why a step has no next state. The six causes of 60_exceptions.md are NOT here: a step that raises one of them takes
the fault entry of R186 and has a next state (log 10). -/
inductive Fault where
  /-- The step never completes (00_scope.md R9 (c)). Raised by `MUL` alone, when the multiplier cell holds zero or less
  (42_arithmetic.md R122). Safe: no claim about a next state can be proved of it (log 6). -/
  | hang
  deriving DecidableEq, Repr

/-- Why the model refuses an instruction. -/
inductive Refusal where
  /-- The instruction has no meaning in the model. Raised by an arm of `exec` alone, and by none in this package.
  Safe: a refused step has no next state. -/
  | notModelled (mnemonic : String)
  deriving DecidableEq, Repr

/-- The state after reset (10_state.md R27): the launch of the program of no lines with the default launch values
(70_reset_and_hazards.md R211; log 2, 3, 4). -/
def State.reset : State where
  acc := 0
  pc := 0
  ir := []
  ar := 0
  dr := 0
  ctr := 0
  inpr := none
  outr := none
  engine := .running
  fault := none
  mem := []
  sym := []
  outTrace := []
  hook := false
  hookCalls := []

end Sys2Proof.Machine
end

