-- ==== Sys2Proof/Machine/Ops.lean ====
section
/-! DEFINITION. The named operations over memory and registers, and taking a fault. The machine has no return from a
fault (60_exceptions.md R190), so there is no operation for one. -/

namespace Sys2Proof.Machine

/-- The outcome of a step or of an instruction. -/
abbrev Result := Host.Outcome State Fault Refusal

/-! ## Memory -/

/-- The line cell `a` holds; a cell that is not listed holds the empty line (10_state.md R27). -/
def Memory.read (m : Memory) (a : Nat) : Line :=
  match m with
  | [] => []
  | (b, l) :: rest => if b = a then l else Memory.read rest a

/-- Make cell `a` hold the line `l`, keeping the canonical form: an empty line is not listed. -/
def Memory.write (m : Memory) (a : Nat) (l : Line) : Memory :=
  match m with
  | [] => if l = [] then [] else [(a, l)]
  | (b, k) :: rest =>
    if b < a then (b, k) :: Memory.write rest a l
    else
      let tail := if b = a then rest else (b, k) :: rest
      if l = [] then tail else (a, l) :: tail

/-- Whether every listed address is at least `lo` and the addresses strictly rise. -/
def Memory.rising (lo : Nat) : Memory → Bool
  | [] => true
  | (b, _) :: rest => lo ≤ b && Memory.rising (b + 1) rest

/-- The canonical form: addresses strictly rise, lie below `MEMSIZE`, and no listed line is empty. -/
def Memory.wf (m : Memory) : Bool :=
  Memory.rising 0 m && m.all (fun c => decide (c.1 < Config.memSize) && !c.2.isEmpty)

/-- Whether an integer is the address of a cell: `0 <= a < MEMSIZE` (20_memory.md R41, R43). -/
def validAddr (a : Int) : Bool := decide (0 ≤ a) && decide (a < Config.memSize)

/-- The line at an address; outside memory there is none, and the empty line stands for it (60_exceptions.md R184 (a)). -/
def State.lineAt (s : State) (a : Int) : Line := if validAddr a then s.mem.read a.toNat else []

/-- `Mem[PC]`, the raw line of the cell being executed (10_state.md R21). -/
def State.currentLine (s : State) : Line := s.lineAt s.pc

/-! ## Register updates -/

/-- Write `ACC` (10_state.md R11). -/
def State.setAcc (s : State) (v : Int) : State := { s with acc := v }

/-- Write `PC` (10_state.md R12). -/
def State.setPc (s : State) (v : Int) : State := { s with pc := v }

/-- Write `IR` (10_state.md R13). -/
def State.setIr (s : State) (l : Line) : State := { s with ir := l }

/-- Write `AR` (10_state.md R14). -/
def State.setAr (s : State) (v : Int) : State := { s with ar := v }

/-- Write `DR` (10_state.md R15). -/
def State.setDr (s : State) (v : Int) : State := { s with dr := v }

/-- Write `CTR` (10_state.md R16). -/
def State.setCtr (s : State) (v : Int) : State := { s with ctr := v }

/-- Write `INPR` (10_state.md R17); only the host does (50_host_interface.md R166), no instruction. -/
def State.setInpr (s : State) (v : Int) : State := { s with inpr := some v }

/-- Write `STATE` (10_state.md R20). -/
def State.setEngine (s : State) (e : EngineState) : State := { s with engine := e }

/-- Write the line of one cell (10_state.md R22). -/
def State.writeCell (s : State) (a : Nat) (l : Line) : State := { s with mem := s.mem.write a l }

/-- `PC <- PC + 1`, with no wrap (40_step_cycle.md R99). -/
def State.advance (s : State) : State := s.setPc (s.pc + 1)

/-- `OUTR <- ACC; OUT_TRACE <- OUT_TRACE ++ [ACC]` (44_io.md R141). -/
def State.emit (s : State) : State := { s with outr := some s.acc, outTrace := s.outTrace ++ [s.acc] }

/-- What the host can read of the engine (50_host_interface.md R169). -/
def State.view (s : State) : HostView :=
  ⟨s.acc, s.pc, s.ir, s.ar, s.dr, s.ctr, s.inpr, s.outr, s.engine, s.fault, s.mem⟩

/-- Call the observation hook, if one is configured, on the committed state (44_io.md R141, 50_host_interface.md R168). -/
def State.callHook (s : State) : State := if s.hook then { s with hookCalls := s.hookCalls ++ [s.view] } else s

/-! ## Faults -/

/-- Fault entry (60_exceptions.md R186): the record is written, `STATE` becomes `Faulted`, nothing else changes. -/
def State.raise (s : State) (c : Cause) (a : Int) (l : Line) : State :=
  { s with engine := .faulted, fault := some ⟨c, a, l⟩ }

/-- Fault entry of an instruction at `PC`: the recorded line is `Mem[PC]` (60_exceptions.md R181 to R188). -/
def State.raiseHere (s : State) (c : Cause) (a : Int) : State := s.raise c a s.currentLine

/-- The machine's cause for a failure of the decoder (40_step_cycle.md R95, R96). -/
def causeOf : DecodeError → Cause
  | .invalidOpcode => .invalidOpcode
  | .invalidOperand => .invalidOperand
  | .unresolvedLabel => .unresolvedLabel

/-- The numeric code of a cause (60_exceptions.md R180). -/
def Cause.code : Cause → Nat
  | .invalidOpcode => 1
  | .unresolvedLabel => 2
  | .invalidOperand => 3
  | .invalidAddress => 4
  | .nonNumericCell => 5
  | .unsetInput => 6

/-! ## Data access -/

/-- `MemRead(a, 1)` (20_memory.md R45): the cell's integer, or the cause of the fault. -/
def State.readData (s : State) (a : Int) : Except Cause Int :=
  if validAddr a then
    match dataValue (s.mem.read a.toNat) with
    | some v => .ok v
    | none => .error .nonNumericCell
  else .error .invalidAddress

/-- `MemWrite(a, 1, v)` (20_memory.md R46): the canonical decimal text of `v` becomes the whole line of the cell. -/
def State.writeData (s : State) (a v : Int) : Except Cause State :=
  if validAddr a then .ok (s.writeCell a.toNat (dec v)) else .error .invalidAddress

end Sys2Proof.Machine
end

