-- ==== Sys2Proof/Machine/Flags.lean ====
section
/-! DEFINITION. The arithmetic and logic of the handlers. The machine has no flags (10_state.md R19): the one condition is
`ACC = 0`, tested by `JUZ` when it executes. -/

namespace Sys2Proof.Machine

/-- The one condition of the machine (45_control.md R151). -/
def accIsZero (s : State) : Bool := s.acc == 0

/-- The bits of `m` that are not in `n`, for natural numbers. -/
def natAndNot (m n : Nat) : Nat := m ^^^ (m &&& n)

/-- Bitwise AND in the infinite two's complement (00_scope.md R7); a negative integer `-[m+1]` is the complement of `m`. -/
def bitAnd : Int → Int → Int
  | .ofNat m, .ofNat n => .ofNat (m &&& n)
  | .ofNat m, .negSucc n => .ofNat (natAndNot m n)
  | .negSucc m, .ofNat n => .ofNat (natAndNot n m)
  | .negSucc m, .negSucc n => .negSucc (m ||| n)

/-- Bitwise OR in the infinite two's complement (00_scope.md R7). -/
def bitOr : Int → Int → Int
  | .ofNat m, .ofNat n => .ofNat (m ||| n)
  | .ofNat m, .negSucc n => .negSucc (natAndNot n m)
  | .negSucc m, .ofNat n => .negSucc (natAndNot m n)
  | .negSucc m, .negSucc n => .negSucc (m &&& n)

/-- Bitwise XOR in the infinite two's complement (00_scope.md R7). -/
def bitXor : Int → Int → Int
  | .ofNat m, .ofNat n => .ofNat (m ^^^ n)
  | .ofNat m, .negSucc n => .negSucc (m ^^^ n)
  | .negSucc m, .ofNat n => .negSucc (m ^^^ n)
  | .negSucc m, .negSucc n => .ofNat (m ^^^ n)

/-- Bitwise complement (00_scope.md R7). -/
def bitNot : Int → Int
  | .ofNat m => .negSucc m
  | .negSucc m => .ofNat m

/-- The loop of `MUL` (42_arithmetic.md R122): `while CTR != 0: ACC <- ACC + DR; CTR <- CTR + 1`, at most `fuel` passes.
The answer is the final `ACC`, or none where `CTR` is still not zero. -/
def mulLoop (dr : Int) : (fuel : Nat) → (acc ctr : Int) → Option Int
  | 0, acc, ctr => if ctr = 0 then some acc else none
  | k + 1, acc, ctr => if ctr = 0 then some acc else mulLoop dr k (acc + dr) (ctr + 1)

/-- The whole loop of `MUL` from a counter: it makes `-ctr` passes where the counter starts at zero or less; from a
counter above zero it never ends, and the answer is none (42_arithmetic.md R122). -/
def mulRun (dr acc ctr : Int) : Option Int := mulLoop dr (-ctr).toNat acc ctr

end Sys2Proof.Machine
end

