-- ==== Sys2Proof/Machine/Operands.lean ====
section
/-! DEFINITION. The three operand forms (30_encoding.md R63, R71, R73): what each writes to `AR`
(40_step_cycle.md R97) and which fault each takes before the handler's own effect. -/

namespace Sys2Proof.Machine

/-- Format `M`, reading: `AR <- a; v <- MemRead(AR, 1)`, then the handler `k` on the state with `AR` written and on `v`;
a failed read takes the fault with address `AR` (41_data_transfer.md R110, 60_exceptions.md R184, R185). -/
def withCell (a : Int) (s : State) (k : State → Int → Result) : Result :=
  match (s.setAr a).readData a with
  | .ok v => k (s.setAr a) v
  | .error c => .next ((s.setAr a).raiseHere c a)

/-- Format `M`, writing: `AR <- a; MemWrite(AR, 1, v)`, then the handler's continuation; a failed write takes the fault
with address `AR` (41_data_transfer.md R111, 60_exceptions.md R184). -/
def withStore (a v : Int) (s : State) (k : State → Result) : Result :=
  match (s.setAr a).writeData a v with
  | .ok t => k t
  | .error c => .next ((s.setAr a).raiseHere c a)

/-- Format `J`: the operand is resolved (a failure faults with address `PC`, `AR` unwritten: 60_exceptions.md R182, R187),
`AR` is written, and the target is checked, whether or not the jump will be taken (45_control.md R153). -/
def withTarget (t : Target) (s : State) (k : State → Int → Result) : Result :=
  match resolveTarget s.sym t with
  | none => .next (s.raiseHere .unresolvedLabel s.pc)
  | some a =>
    if validAddr a then k (s.setAr a) a else .next ((s.setAr a).raiseHere .invalidAddress a)

/-- Format `Z`: a surplus operand is written to `AR` and otherwise ignored (30_encoding.md R73 (b)). -/
def State.withSurplus (s : State) (o : Option Int) : State :=
  match o with
  | none => s
  | some a => s.setAr a

end Sys2Proof.Machine
end

