-- ==== Sys2Proof/Machine/Arithmetic.lean ====
section
/-! DEFINITION. Arithmetic: ADD, SUB, MUL, INR (42_arithmetic.md). -/

namespace Sys2Proof.Machine

/-- `ADD a` (42_arithmetic.md R120): `ACC <- ACC + MemRead(AR, 1); PC + 1`. -/
def execAdd (a : Int) (s : State) : Result :=
  withCell a s fun s v => .next (s.setAcc (s.acc + v)).advance

/-- `SUB a` (42_arithmetic.md R121): `ACC <- ACC - MemRead(AR, 1); PC + 1`. -/
def execSub (a : Int) (s : State) : Result :=
  withCell a s fun s v => .next (s.setAcc (s.acc - v)).advance

/-- `MUL a` (42_arithmetic.md R122): `CTR <- 1 - MemRead(AR, 1)`, then the loop, which leaves `CTR = 0`; where the loop never
ends the step hangs and has no next state (log 6). -/
def execMul (a : Int) (s : State) : Result :=
  withCell a s fun s m =>
    match mulRun s.dr s.acc (1 - m) with
    | some v => .next ((s.setCtr 0).setAcc v).advance
    | none => .fault .hang

/-- `INR` (42_arithmetic.md R123): `ACC <- ACC + 1; PC + 1`. -/
def execInr (o : Option Int) (s : State) : Result :=
  .next ((s.withSurplus o).setAcc (s.acc + 1)).advance

end Sys2Proof.Machine
end

