-- ==== Sys2Proof/Machine/Control.lean ====
section
/-! DEFINITION. Control: JUM, JUZ, FIN (45_control.md). -/

namespace Sys2Proof.Machine

/-- `JUM t` (45_control.md R150): `PC <- AR`. -/
def execJum (t : Target) (s : State) : Result :=
  withTarget t s fun s a => .next (s.setPc a)

/-- `JUZ t` (45_control.md R151): `PC <- AR` if `ACC = 0`, else `PC + 1`; the target is checked in both cases (R153). -/
def execJuz (t : Target) (s : State) : Result :=
  withTarget t s fun s a => .next (if accIsZero s then s.setPc a else s.advance)

/-- `FIN` (45_control.md R152): `STATE <- Finished`; `PC` stays. -/
def execFin (o : Option Int) (s : State) : Result :=
  .next ((s.withSurplus o).setEngine .finished)

end Sys2Proof.Machine
end

