-- ==== Sys2Proof/Machine/DataTransfer.lean ====
section
/-! DEFINITION. Data transfer: LOM, STO (41_data_transfer.md). -/

namespace Sys2Proof.Machine

/-- `LOM a` (41_data_transfer.md R110): `DR <- MemRead(AR, 1); ACC <- DR; PC + 1`. -/
def execLom (a : Int) (s : State) : Result :=
  withCell a s fun s v => .next ((s.setDr v).setAcc v).advance

/-- `STO a` (41_data_transfer.md R111): `MemWrite(AR, 1, ACC); PC + 1`. -/
def execSto (a : Int) (s : State) : Result :=
  withStore a s.acc s fun s => .next s.advance

end Sys2Proof.Machine
end

