-- ==== Sys2Proof/Machine/InputOutput.lean ====
section
/-! DEFINITION. Input and output: INP, OUT (44_io.md). -/

namespace Sys2Proof.Machine

/-- `INP` (44_io.md R140): `ACC <- INPR; PC + 1`, or the fault `UnsetInput` at `PC` where `INPR` is unset. -/
def execInp (o : Option Int) (s : State) : Result :=
  match s.inpr with
  | some v => .next ((s.withSurplus o).setAcc v).advance
  | none => .next ((s.withSurplus o).raiseHere .unsetInput s.pc)

/-- `OUT` (44_io.md R141): `OUTR <- ACC`, the trace grows by `ACC`, `PC + 1`, and then the hook is called if one is configured. -/
def execOut (o : Option Int) (s : State) : Result :=
  .next (s.withSurplus o).emit.advance.callHook

end Sys2Proof.Machine
end

