-- ==== Sys2Proof/Machine/Logic.lean ====
section
/-! DEFINITION. Logic: AND, OR, XOR, NOT (43_logic.md). -/

namespace Sys2Proof.Machine

/-- `AND a` (43_logic.md R130): `ACC <- ACC AND MemRead(AR, 1); PC + 1`. -/
def execAnd (a : Int) (s : State) : Result :=
  withCell a s fun s v => .next (s.setAcc (bitAnd s.acc v)).advance

/-- `OR a` (43_logic.md R131): `ACC <- ACC OR MemRead(AR, 1); PC + 1`. -/
def execOr (a : Int) (s : State) : Result :=
  withCell a s fun s v => .next (s.setAcc (bitOr s.acc v)).advance

/-- `XOR a` (43_logic.md R132): `ACC <- ACC XOR MemRead(AR, 1); PC + 1`. -/
def execXor (a : Int) (s : State) : Result :=
  withCell a s fun s v => .next (s.setAcc (bitXor s.acc v)).advance

/-- `NOT` (43_logic.md R133): `ACC <- NOT ACC; PC + 1`. -/
def execNot (o : Option Int) (s : State) : Result :=
  .next ((s.withSurplus o).setAcc (bitNot s.acc)).advance

end Sys2Proof.Machine
end

