-- ==== Sys2Proof/Machine/Dispatch.lean ====
section
/-! DEFINITION. Dispatch: the handler of each opcode (40_step_cycle.md R98), one arm per constructor. -/

namespace Sys2Proof.Machine

/-- The effect of a decoded instruction on the state after its line was fetched (40_step_cycle.md R97 to R99). -/
def exec (i : Instr) (s : State) : Host.Outcome State Fault Refusal :=
  match i with
  | .lom a => Sys2Proof.Machine.execLom a s
  | .sto a => Sys2Proof.Machine.execSto a s
  | .add a => Sys2Proof.Machine.execAdd a s
  | .sub a => Sys2Proof.Machine.execSub a s
  | .mul a => Sys2Proof.Machine.execMul a s
  | .and a => Sys2Proof.Machine.execAnd a s
  | .or a => Sys2Proof.Machine.execOr a s
  | .xor a => Sys2Proof.Machine.execXor a s
  | .not o => Sys2Proof.Machine.execNot o s
  | .inr o => Sys2Proof.Machine.execInr o s
  | .inp o => Sys2Proof.Machine.execInp o s
  | .out o => Sys2Proof.Machine.execOut o s
  | .jum t => Sys2Proof.Machine.execJum t s
  | .juz t => Sys2Proof.Machine.execJuz t s
  | .fin o => Sys2Proof.Machine.execFin o s

end Sys2Proof.Machine
end

