-- ==== Sys2Proof/Machine/Cycle.lean ====
section
/-! DEFINITION. The step cycle (40_step_cycle.md): entry check, fetch, skip, decode, dispatch. -/

namespace Sys2Proof.Machine

/-- What a step does once the line is in `IR`: pass over it (R93, R94), fault (R95, R96), or execute it (R97 to R99). -/
def State.perform (s : State) : Fetched → Result
  | .skip => .next s.advance
  | .reject e => .next (s.raiseHere (causeOf e) s.pc)
  | .run i => exec i s

/-- Fetch: `line <- Mem[PC]; IR <- line` (R92). -/
def State.fetch (s : State) : State := s.setIr s.currentLine

/-- A step of a running engine: the bounds check of `PC`, whose fault records the empty line (R91 (b), 60_exceptions.md
R184 (a)), then fetch and what the line asks for. -/
def State.cycle (s : State) : Result :=
  if validAddr s.pc then s.fetch.perform (decodeFetched s.currentLine)
  else .next (s.raise .invalidAddress s.pc [])

/-- One step (R90): a `Finished` or `Faulted` engine does nothing (R91 (a)). -/
def State.stepEngine (s : State) : Result :=
  match s.engine with
  | .running => s.cycle
  | .finished => .next s
  | .faulted => .next s

/-- Put a line where the next step fetches, and make the engine one that fetches: `Running`, no fault record, and `PC` at
cell 0 if it pointed outside memory. -/
def State.placeLine (s : State) (line : Line) : State :=
  let pc := if validAddr s.pc then s.pc else 0
  { s with engine := .running, fault := none, pc := pc, mem := s.mem.write pc.toNat line }

/-- Put the line of a table word where the next step fetches (log 9); a word that names no instruction changes nothing. -/
def State.placeTableWord (s : State) (nbits w : Nat) : State :=
  match tableLine nbits w with
  | some line => s.placeLine line
  | none => s

end Sys2Proof.Machine
end

