-- ==== Sys2Proof/Machine/Step.lean ====
section
/-! DEFINITION. One step of the machine (40_step_cycle.md R90). -/

namespace Sys2Proof.Machine

/-- One step = one full fetch-decode-execute cycle (40_step_cycle.md R90). -/
def step (s : State) : Host.Outcome State Fault Refusal := s.stepEngine

/-- The state with the line of a table word in the cell the next step fetches (log 9). -/
def State.withFetchWord (s : State) (nbits w : Nat) : State := s.placeTableWord nbits w

end Sys2Proof.Machine
end

