-- ==== Sys2Proof/Machine/Load.lean ====
section
/-! DEFINITION. Load and reset: how the machine comes into being (70_reset_and_hazards.md R210 to R214, 10_state.md R27, R28). -/

namespace Sys2Proof.Machine

/-- Why a program is rejected at load (70_reset_and_hazards.md R211, R213). -/
inductive LoadError where
  /-- More lines than cells. -/
  | programTooLarge
  /-- A second definition of a label, and the index of its line. -/
  | duplicateLabel (name : Token) (index : Nat)
  /-- A jump line naming a label no line defines, and the index of the jump's line. -/
  | undefinedLabel (name : Token) (index : Nat)
  deriving DecidableEq, Repr

/-- The launch values `INIT` (10_state.md R27, 50_host_interface.md R162, R168), with the spec's defaults (log 3, log 4). -/
structure Init where
  acc : Int := 0
  ar : Int := 0
  dr : Int := 0
  ctr : Int := 0
  inpr : Option Int := none
  hook : Bool := false
  deriving DecidableEq, Repr

/-- The prepass (70_reset_and_hazards.md R212): every label line binds its name to the index of its own cell; a name bound
twice is rejected. `i` is the index of the first line of the list. -/
def buildSymbols (sym : SymbolTable) (i : Nat) : List Line → Except LoadError SymbolTable
  | [] => .ok sym
  | line :: rest =>
    match classify line with
    | .label name =>
      match lookupLabel sym name with
      | some _ => .error (.duplicateLabel name i)
      | none => buildSymbols (sym ++ [(name, i)]) (i + 1) rest
    | .empty => buildSymbols sym (i + 1) rest
    | .comment _ => buildSymbols sym (i + 1) rest
    | .data _ => buildSymbols sym (i + 1) rest
    | .dataJunk _ => buildSymbols sym (i + 1) rest
    | .instr _ _ => buildSymbols sym (i + 1) rest
    | .bad _ => buildSymbols sym (i + 1) rest

/-- The label a line must find in the symbol table: the single symbolic operand token of a jump line (70_reset_and_hazards.md R213). -/
def neededLabel (line : Line) : Option Token :=
  match classify line with
  | .instr m args =>
    match args with
    | [t] => if isJump m && !isInt t then some t else none
    | [] => none
    | _ :: _ :: _ => none
  | .label _ => none
  | .empty => none
  | .comment _ => none
  | .data _ => none
  | .dataJunk _ => none
  | .bad _ => none

/-- The first line that needs a label the table does not hold, if there is one (70_reset_and_hazards.md R213). -/
def findUndefined (sym : SymbolTable) (i : Nat) : List Line → Option LoadError
  | [] => none
  | line :: rest =>
    match neededLabel line with
    | some t =>
      match lookupLabel sym t with
      | none => some (.undefinedLabel t i)
      | some _ => findUndefined sym (i + 1) rest
    | none => findUndefined sym (i + 1) rest

/-- The memory of a program: line `i` in cell `i`, kept as it was given (70_reset_and_hazards.md R210); an empty line is not listed. -/
def memoryOf (i : Nat) : List Line → Memory
  | [] => []
  | line :: rest => if line = [] then memoryOf (i + 1) rest else (i, line) :: memoryOf (i + 1) rest

/-- The state of a fresh launch (10_state.md R27). -/
def launch (mem : Memory) (sym : SymbolTable) (init : Init) : State where
  acc := init.acc
  pc := 0
  ir := []
  ar := init.ar
  dr := init.dr
  ctr := init.ctr
  inpr := init.inpr
  outr := none
  engine := .running
  fault := none
  mem := mem
  sym := sym
  outTrace := []
  hook := init.hook
  hookCalls := []

/-- `load(lines, init)` (70_reset_and_hazards.md R210): size, then duplicate labels, then undefined labels, then the fresh state. -/
def load (lines : List Line) (init : Init) : Except LoadError State :=
  if Config.memSize < lines.length then .error .programTooLarge
  else
    match buildSymbols [] 0 lines with
    | .error e => .error e
    | .ok sym =>
      match findUndefined sym 0 lines with
      | some e => .error e
      | none => .ok (launch (memoryOf 0 lines) sym init)

/-- `reset(lines, init)`: the host repeats the load with the same text and launch values (70_reset_and_hazards.md R214). -/
def resetWith (lines : List Line) (init : Init) : Except LoadError State := load lines init

end Sys2Proof.Machine
end

