-- ==== Sys2Proof/Machine/HostInterface.lean ====
section
/-! DEFINITION. The host interface (50_host_interface.md): the operations between steps, the step report, runs and read-out. -/

namespace Sys2Proof.Machine

/-- The registers in the order of 10_state.md R10. -/
inductive RegName where
  | ACC | PC | IR | AR | DR | CTR | INPR | OUTR
  deriving DecidableEq, Repr

/-- What a register holds: an integer, text (`IR` alone), or unset (`INPR` and `OUTR` alone) (10_state.md R10). -/
inductive RegValue where
  | int (v : Int)
  | text (l : Line)
  | unset
  deriving DecidableEq, Repr

/-- The register with index `i` of the notation `x[i]` (00_scope.md section 5, 10_state.md R10). -/
def regOfIndex : Fin 8 → RegName
  | 0 => .ACC
  | 1 => .PC
  | 2 => .IR
  | 3 => .AR
  | 4 => .DR
  | 5 => .CTR
  | 6 => .INPR
  | 7 => .OUTR

/-- An integer or unset, as a register's content. -/
def regValueOf : Option Int → RegValue
  | some v => .int v
  | none => .unset

/-- Read-out of a register (50_host_interface.md R169). -/
def HostView.readReg (v : HostView) : RegName → RegValue
  | .ACC => .int v.acc
  | .PC => .int v.pc
  | .IR => .text v.ir
  | .AR => .int v.ar
  | .DR => .int v.dr
  | .CTR => .int v.ctr
  | .INPR => regValueOf v.inpr
  | .OUTR => regValueOf v.outr

/-- Read-out of one cell as text (50_host_interface.md R169). -/
def HostView.readCell (v : HostView) (a : Fin Config.memSize) : Line := v.mem.read a

/-- Read-out of memory as text (50_host_interface.md R169): the line of every cell, in order of address. -/
def HostView.readMemory (v : HostView) : List Line := (List.range Config.memSize).map v.mem.read

/-- One read-out of the host (50_host_interface.md R169). -/
inductive ReadOut where
  | reg (r : RegName)
  | cell (a : Fin Config.memSize)
  | memory
  | engineState
  | faultRecord
  deriving DecidableEq, Repr

/-- What a read-out gives back (50_host_interface.md R169, R171). -/
inductive ReadValue where
  | reg (v : RegValue)
  | line (l : Line)
  | lines (ls : List Line)
  | engineState (e : EngineState)
  | faultRecord (r : Option FaultRecord)
  deriving DecidableEq, Repr

/-- A read-out of what the host sees, between operations or inside the hook (50_host_interface.md R169). -/
def HostView.readOut (v : HostView) : ReadOut → ReadValue
  | .reg r => .reg (v.readReg r)
  | .cell a => .line (v.readCell a)
  | .memory => .lines v.readMemory
  | .engineState => .engineState v.engine
  | .faultRecord => .faultRecord v.fault

/-- `set_inpr` (50_host_interface.md R166): `INPR <- v`; no effect on an engine that will not step again. -/
def State.hostSetInpr (s : State) (v : Int) : State :=
  match s.engine with
  | .running => s.setInpr v
  | .finished => s
  | .faulted => s

/-- `force_finish` (50_host_interface.md R167): `Running` becomes `Finished`; in any other state no effect. -/
def State.forceFinish (s : State) : State :=
  match s.engine with
  | .running => s.setEngine .finished
  | .finished => s
  | .faulted => s

/-- What `step` tells the host (50_host_interface.md R164). -/
inductive StepReport where
  | stillRunning
  | becameFinished
  | becameFaulted (r : Option FaultRecord)
  | alreadyFinished
  | alreadyFaulted
  deriving DecidableEq, Repr

/-- The report of a step from `s` that returned with `t` (50_host_interface.md R164). -/
def stepReport (s t : State) : StepReport :=
  match s.engine with
  | .finished => .alreadyFinished
  | .faulted => .alreadyFaulted
  | .running =>
    match t.engine with
    | .running => .stillRunning
    | .finished => .becameFinished
    | .faulted => .becameFaulted t.fault

/-- `run` (50_host_interface.md R165, 40_step_cycle.md R102): repeat `step` while `STATE = Running`, at most `fuel` times; the
machine itself has no limit, and where the fuel runs out the answer is the state reached so far (log 17). `request` is the host's
`force_finish`: `some j` is one that comes during step `j + 1` of the run, which is honoured at the end of that step, between two
steps and at no other point (R167, the spec's decision D30). -/
def runFor : (fuel : Nat) → (request : Option Nat) → State → Result
  | 0, _, s => .next s
  | k + 1, request, s =>
    match s.engine with
    | .finished => .next s
    | .faulted => .next s
    | .running =>
      match step s with
      | .fault r => .fault r
      | .refused r => .refused r
      | .next t =>
        match request with
        | none => runFor k none t
        | some 0 => .next t.forceFinish
        | some (j + 1) => runFor k (some j) t

/-- The operations of the host, all of them (50_host_interface.md R160). -/
inductive HostOp where
  | load (lines : List Line) (init : Init)
  | reset (lines : List Line) (init : Init)
  | step
  | run (fuel : Nat) (request : Option Nat)
  | setInpr (v : Int)
  | forceFinish
  | read (r : ReadOut)
  deriving DecidableEq, Repr

/-- What an operation gives back to the host (50_host_interface.md R171). -/
inductive HostReply where
  | accepted
  | rejected (e : LoadError)
  | stepped (r : StepReport)
  /-- The run has ended, in this state. -/
  | ended (e : EngineState)
  /-- The run has not returned within the model's fuel (log 17). -/
  | unreturned
  | done
  | value (v : ReadValue)
  /-- There is no engine, before the first load and after a rejected one. DESIGN CHOICE: the spec says there is none and not what
  an operation gives back then; the model answers this and does nothing (log 18). -/
  | noEngine
  deriving DecidableEq, Repr

/-- The reply and the engine after a load or a reset: a rejected one leaves no engine (50_host_interface.md R162). -/
def loadReply : Except LoadError State → HostReply × Option State
  | .ok s => (.accepted, some s)
  | .error e => (.rejected e, none)

/-- The reply and the engine where an operation leads to a state; one that hangs gives neither (50_host_interface.md R164). -/
def replyWith (reply : State → HostReply) : Result → Host.Outcome (HostReply × Option State) Fault Refusal
  | .next t => .next (reply t, some t)
  | .fault r => .fault r
  | .refused r => .refused r

/-- What a run gives back (50_host_interface.md R171). -/
def runReport (t : State) : HostReply :=
  match t.engine with
  | .running => .unreturned
  | .finished => .ended .finished
  | .faulted => .ended .faulted

/-- An operation on a loaded engine (50_host_interface.md R162 to R169). -/
def HostOp.applyTo (op : HostOp) (s : State) : Host.Outcome (HostReply × Option State) Fault Refusal :=
  match op with
  | .load lines init => .next (loadReply (Sys2Proof.Machine.load lines init))
  | .reset lines init => .next (loadReply (resetWith lines init))
  | .step => replyWith (fun t => .stepped (stepReport s t)) (Sys2Proof.Machine.step s)
  | .run fuel request => replyWith runReport (runFor fuel request s)
  | .setInpr v => .next (.done, some (s.hostSetInpr v))
  | .forceFinish => .next (.done, some s.forceFinish)
  | .read r => .next (.value (s.view.readOut r), some s)

/-- An operation where there is no engine: only a load or a reset makes one (50_host_interface.md R162, 70_reset_and_hazards.md
R214); what the others give back is the model's choice (log 18). -/
def HostOp.applyToNone (op : HostOp) : HostReply × Option State :=
  match op with
  | .load lines init => loadReply (Sys2Proof.Machine.load lines init)
  | .reset lines init => loadReply (resetWith lines init)
  | .step => (.noEngine, none)
  | .run _ _ => (.noEngine, none)
  | .setInpr _ => (.noEngine, none)
  | .forceFinish => (.noEngine, none)
  | .read _ => (.noEngine, none)

/-- One operation of the host on the engine, if there is one. -/
def HostOp.apply (op : HostOp) (engine : Option State) : Host.Outcome (HostReply × Option State) Fault Refusal :=
  match engine with
  | some s => op.applyTo s
  | none => .next op.applyToNone

/-- A session: operations one after another, each complete before the next (50_host_interface.md R160); the replies, oldest
first, and the engine at the end. A step that hangs ends it, and so does a run that has not returned: nothing may begin while
it is in progress. -/
def runSession : List HostOp → Option State → Host.Outcome (List HostReply × Option State) Fault Refusal
  | [], engine => .next ([], engine)
  | op :: rest, engine =>
    match op.apply engine with
    | .fault r => .fault r
    | .refused r => .refused r
    | .next (reply, engine') =>
      if reply = .unreturned then .next ([reply], engine')
      else
        match runSession rest engine' with
        | .fault r => .fault r
        | .refused r => .refused r
        | .next (replies, e) => .next (reply :: replies, e)

end Sys2Proof.Machine
end

