-- ==== Sys2Proof/Safety.lean ====
section
/-! DEFINITION. What counts as a safe state and a good end of a run, in the terms statements use. -/

namespace Sys2Proof.Machine

/-- A run has ended (40_step_cycle.md R103). -/
abbrev State.Ended (s : State) : Prop := s.engine ≠ .running

/-- A run has ended well: `Finished` with no fault record (40_step_cycle.md R103). -/
abbrev State.EndedWell (s : State) : Prop := s.engine = .finished ∧ s.fault = none

/-- Every label of a table is bound to a cell (10_state.md R23). -/
abbrev symbolsInMemory (sym : SymbolTable) : Prop := ∀ e ∈ sym, e.2 < Config.memSize

/-- The invariant every step keeps: memory is canonical; `PC` lies in `0 .. MEMSIZE` (10_state.md R12); `STATE = Faulted`
exactly when there is a fault record (R21); `OUTR` is the last value of the output trace (R18, R24); the hook has been called
once for each `OUT` if it is configured and never otherwise, and saw canonical memory (44_io.md R141); every label is bound to a
cell (R23). -/
structure State.Inv (s : State) : Prop where
  mem_wf : s.mem.wf = true
  pc_low : 0 ≤ s.pc
  pc_high : s.pc ≤ Config.memSize
  fault_iff : s.engine = .faulted ↔ s.fault ≠ none
  outr_last : s.outr = s.outTrace.getLast?
  hook_on : s.hook = true → s.hookCalls.length = s.outTrace.length
  hook_off : s.hook = false → s.hookCalls = []
  hook_mem : ∀ v ∈ s.hookCalls, v.mem.wf = true
  sym_ok : symbolsInMemory s.sym

/-- Every jump line in memory with a label operand names a label of the symbol table: what load establishes
(70_reset_and_hazards.md R213). -/
def State.LabelsResolve (s : State) : Prop :=
  ∀ c ∈ s.mem, ∀ t, neededLabel c.2 = some t → lookupLabel s.sym t ≠ none

/-- Whether the line the engine fetches next decodes to the instruction `i`. -/
abbrev State.Fetches (s : State) (i : Instr) : Prop :=
  s.engine = .running ∧ validAddr s.pc = true ∧ decodeFetched s.currentLine = .run i

/-- Whether cell `a` exists and its whole line is the integer `v` (20_memory.md R44). -/
abbrev State.CellHolds (s : State) (a v : Int) : Prop :=
  validAddr a = true ∧ dataValue (s.mem.read a.toNat) = some v

/-! ## The shape of an instruction rule: its operand form, its effect, its faults -/

/-- The instruction `i` can do nothing but take the fault `(c, a, Mem[PC])` with `AR = ar`: `ACC`, `PC` and all else are as before
(60_exceptions.md R186, R187). -/
abbrev FaultsWith (i : Instr) (s : State) (c : Cause) (a ar : Int) : Prop :=
  exec i s = .next { s with ar := ar, engine := .faulted, fault := some ⟨c, a, s.currentLine⟩ }

/-- The operand of a format `M` mnemonic is one numeric token, required, and any other operand is `InvalidOperand` (30_encoding.md R72, R73). -/
abbrev NeedsAddress (m : Mnemonic) (mk : Int → Instr) : Prop :=
  (∀ args i, decodeInstr m args = .ok i ↔ ∃ t, args = [t] ∧ isInt t = true ∧ i = mk (intOf t)) ∧
  ∀ args e, decodeInstr m args = .error e → e = .invalidOperand

/-- The operand of a format `J` mnemonic is one token, required: a number if it is one, else a label name; any other
operand is `InvalidOperand` (30_encoding.md R71 to R73). -/
abbrev NeedsTarget (m : Mnemonic) (mk : Target → Instr) : Prop :=
  (∀ args i, decodeInstr m args = .ok i ↔
    ∃ t, args = [t] ∧ i = mk (if isInt t = true then .addr (intOf t) else .label t)) ∧
  ∀ args e, decodeInstr m args = .error e → e = .invalidOperand

/-- A format `Z` mnemonic has no operand token, or one surplus number; any other operand is `InvalidOperand` (30_encoding.md R72 to
R74). -/
abbrev AllowsSurplus (m : Mnemonic) (mk : Option Int → Instr) : Prop :=
  (∀ args i, decodeInstr m args = .ok i ↔
    (args = [] ∧ i = mk none) ∨ ∃ t, args = [t] ∧ isInt t = true ∧ i = mk (some (intOf t))) ∧
  ∀ args e, decodeInstr m args = .error e → e = .invalidOperand

/-- The spelling and the opcode number of a mnemonic (30_encoding.md R63, R75). -/
abbrev SpelledAndNumbered (m : Mnemonic) (spelling : Token) (op : BitVec 4) : Prop :=
  mnemonicOf spelling = some m ∧ m.number = op

/-- A format `M` instruction that reads its cell faults, with `AR` written, when the address is outside memory, and otherwise when
the cell holds no integer (20_memory.md R45). -/
abbrev ReadFaults (mk : Int → Instr) : Prop :=
  ∀ s a, (validAddr a = false → FaultsWith (mk a) s .invalidAddress a a) ∧
    (validAddr a = true → dataValue (s.mem.read a.toNat) = none → FaultsWith (mk a) s .nonNumericCell a a)

/-- The whole rule of a format `M` instruction that reads its cell and completes on every integer: spelling, operand, effect (all of
the next state) and faults. -/
abbrev ReadsCell (m : Mnemonic) (spelling : Token) (op : BitVec 4) (mk : Int → Instr) (effect : State → Int → State) : Prop :=
  SpelledAndNumbered m spelling op ∧ NeedsAddress m mk ∧ ReadFaults mk ∧
  ∀ s a v, s.CellHolds a v → exec (mk a) s = .next (effect { s with ar := a, pc := s.pc + 1 } v)

/-- The whole rule of a format `Z` instruction that never faults and moves on: spelling, operand and effect (all of the next
state). -/
abbrev WorksOnAcc (m : Mnemonic) (spelling : Token) (op : BitVec 4) (mk : Option Int → Instr) (f : Int → Int) : Prop :=
  SpelledAndNumbered m spelling op ∧ AllowsSurplus m mk ∧
  ∀ s o, exec (mk o) s = .next { s with ar := o.getD s.ar, acc := f s.acc, pc := s.pc + 1 }

/-- The seven instructions that read the cell `a` (20_memory.md R45). -/
abbrev cellReaders (a : Int) : List Instr := [.lom a, .add a, .sub a, .mul a, .and a, .or a, .xor a]

/-! ## The canonical view of a state (30_encoding.md R78) -/

/-- Every cell in canonical text. -/
def canonicalMemory (m : Memory) : Memory :=
  m.filterMap fun c => if canonical c.2 = [] then none else some (c.1, canonical c.2)

/-- A fault record with its line in canonical text. -/
def FaultRecord.canonical (r : FaultRecord) : FaultRecord := { r with line := Sys2Proof.canonical r.line }

/-- What the host reads, with every line in canonical text. -/
def HostView.canonical (v : HostView) : HostView :=
  { v with ir := Sys2Proof.canonical v.ir, fault := v.fault.map FaultRecord.canonical, mem := canonicalMemory v.mem }

/-- A state with every copy of a line in canonical text: the cells, `IR`, the fault record, what the hook calls saw. -/
def State.canonicalView (s : State) : State :=
  { s with
    mem := canonicalMemory s.mem
    ir := Sys2Proof.canonical s.ir
    fault := s.fault.map FaultRecord.canonical
    hookCalls := s.hookCalls.map HostView.canonical }

/-- The canonical view of an outcome. -/
def canonicalOutcome : Result → Result
  | .next t => .next t.canonicalView
  | .fault r => .fault r
  | .refused r => .refused r

end Sys2Proof.Machine
end

