-- ==== Sys2Proof/Certificates/Slice0/Obligations.lean ====
section
/-! DEFINITION. The statements for the provers. Each docstring names the rule of spec/ it formalises, and each clause that rests
on a decision of the spec or of the model says so. -/

open Sys2Proof Sys2Proof.Machine

/-! ## Text, lines and the decoder -/

/-- Every well-formed instruction, with every operand, is what the decoder reads from its canonical line (30_encoding.md R72,
R78). -/
def Obligations.DecodeOfEncodeIsTheInstruction : Prop :=
  ∀ i : Instr, i.wf = true → decodeFetched (encode i) = .run i

/-- What the decoder reads from a line is well formed: the decoder makes up no operand that no line can hold (30_encoding.md R71,
R79). -/
def Obligations.DecodedInstructionIsWellFormed : Prop :=
  ∀ line i, isLine line = true → decodeFetched line = .run i → i.wf = true

/-- Decimal text (00_scope.md R8, whose grammar is the spec's decision D9): which tokens are integers, what they denote, and that
`dec` is canonical and reads back. -/
def Obligations.DecimalTextIsCanonical : Prop :=
  (∀ t, isInt t = true ↔
    ∃ ds : Line, ds ≠ [] ∧ (∀ c ∈ ds, '0' ≤ c ∧ c ≤ '9') ∧ (t = ds ∨ t = '-' :: ds)) ∧
  (∀ (ds : Line) (c : Char), (∀ d ∈ ds, '0' ≤ d ∧ d ≤ '9') → '0' ≤ c → c ≤ '9' →
    intOf (ds ++ [c]) = 10 * intOf ds + (c.toNat - '0'.toNat : Nat) ∧ intOf ('-' :: ds) = -intOf ds ∧
    intOf ('0' :: ds) = intOf ds) ∧
  (∀ v, isInt (dec v) = true ∧ intOf (dec v) = v) ∧ dec 0 = ['0'] ∧
  ∀ v rest, v ≠ 0 → dec v ≠ '0' :: rest ∧ dec v ≠ '-' :: '0' :: rest

/-- `tokens(line)` is the list of the maximal runs of non-whitespace characters (30_encoding.md R62, decision D10): a line made of
tokens with whitespace before, between and after them comes apart into exactly those tokens. -/
def Obligations.TokensAreMaximalRuns : Prop :=
  ∀ (first : Line) (t : Token) (more : List (Line × Token)) (last : Line),
    (∀ c ∈ first ++ last, c = ' ' ∨ c = '\t') →
    (t ≠ [] ∧ ∀ c ∈ t, c ≠ ' ' ∧ c ≠ '\t') →
    (∀ p ∈ more, (p.1 ≠ [] ∧ ∀ c ∈ p.1, c = ' ' ∨ c = '\t') ∧ (p.2 ≠ [] ∧ ∀ c ∈ p.2, c ≠ ' ' ∧ c ≠ '\t')) →
    tokens (first ++ t ++ more.flatMap (fun p => p.1 ++ p.2) ++ last) = t :: more.map Prod.snd ∧
    tokens (first ++ last) = []

/-- The seven classes of lines, by their tokens (30_encoding.md R63 to R70; the order of the tests is decision D11, the form of a label
decision D12), and the data value of a line (20_memory.md R44, decision D16). -/
def Obligations.LineClassesByTokens : Prop :=
  ∀ line : Line,
    (tokens line = [] → classify line = .empty) ∧
    (∀ cs rest, tokens line = ('#' :: cs) :: rest → classify line = .comment line) ∧
    (∀ name, name ≠ [] → name.head? ≠ some '#' → tokens line = [name ++ [':']] → classify line = .label name) ∧
    (∀ t, isInt t = true → tokens line = [t] → classify line = .data (intOf t)) ∧
    (∀ t u rest, isInt t = true → tokens line = t :: u :: rest → classify line = .dataJunk line) ∧
    (∀ m t args, (m, t) ∈ [(Mnemonic.LOM, ['L', 'O', 'M']), (.STO, ['S', 'T', 'O']), (.ADD, ['A', 'D', 'D']), (.SUB, ['S', 'U', 'B']),
        (.MUL, ['M', 'U', 'L']), (.AND, ['A', 'N', 'D']), (.OR, ['O', 'R']), (.XOR, ['X', 'O', 'R']), (.NOT, ['N', 'O', 'T']),
        (.INR, ['I', 'N', 'R']), (.INP, ['I', 'N', 'P']), (.OUT, ['O', 'U', 'T']), (.JUM, ['J', 'U', 'M']), (.JUZ, ['J', 'U', 'Z']),
        (.FIN, ['F', 'I', 'N'])] →
      t = m.text ∧ (tokens line = t :: args → classify line = .instr m args)) ∧
    (∀ t rest, tokens line = t :: rest → t.head? ≠ some '#' → (rest = [] → t.getLast? = some ':' → t = [':']) → isInt t = false →
      (∀ m : Mnemonic, t ≠ m.text) → classify line = .bad line) ∧
    ∀ v, dataValue line = some v ↔ ∃ t, isInt t = true ∧ tokens line = [t] ∧ v = intOf t

/-- Lines written out from the spec decode as the spec says (30_encoding.md R63, R64, R73; 95_test_vectors.md E6 to E38). -/
def Obligations.SpecLinesDecode : Prop :=
  decodeFetched ['L', 'O', 'M', ' ', '3'] = .run (.lom 3) ∧
  decodeFetched ['L', 'O', 'M', ' ', ' ', ' ', '0', '3', ' '] = .run (.lom 3) ∧
  decodeFetched ['S', 'T', 'O', ' ', '7'] = .run (.sto 7) ∧
  decodeFetched ['M', 'U', 'L', ' ', '6'] = .run (.mul 6) ∧
  decodeFetched ['O', 'R', ' ', '9'] = .run (.or 9) ∧
  decodeFetched ['O', 'U', 'T', ' ', '5'] = .run (.out (some 5)) ∧
  decodeFetched ['J', 'U', 'M', ' ', 'l', 'o', 'o', 'p'] = .run (.jum (.label ['l', 'o', 'o', 'p'])) ∧
  decodeFetched ['F', 'I', 'N'] = .run (.fin none) ∧
  decodeFetched ['F', 'I', 'N', ':'] = .skip ∧
  decodeFetched ['l', 'o', 'm', ' ', '3'] = .reject .invalidOpcode ∧
  decodeFetched ['N', 'O', 'T', ' ', 'e', 'n', 'd'] = .reject .invalidOperand

/-- The literal decoder of 30_encoding.md R72, with the bundle of R75, is the engine's decoder followed by the lookup of the
operand (decisions D13, D14, D21). -/
def Obligations.LiteralDecoderAgrees : Prop :=
  ∀ sym m args, decodeLiteral sym m args =
    match decodeInstr m args with
    | .ok i => bundleOf sym i
    | .error e => .error e

/-- Canonical text (30_encoding.md R78, decision D23): what it is for each class of line; classifying it gives back the class and its
fields, numeric operands in canonical form, so a line and its canonical text are the same to the prepass of load, to the decoder, as data and
to the check of the jump labels; and canonical text is its own canonical text. -/
def Obligations.CanonicalTextActsAlike : Prop :=
  ∀ line,
    (classify line = .empty → canonical line = []) ∧
    (∀ v, classify line = .data v → canonical line = dec v) ∧
    (∀ n, classify line = .label n → canonical line = n ++ [':']) ∧
    (∀ m, classify line = .instr m [] → canonical line = m.text) ∧
    (∀ m t, classify line = .instr m [t] → canonical line = m.text ++ ' ' :: (if isInt t = true then dec (intOf t) else t)) ∧
    (∀ m t u rest, classify line = .instr m (t :: u :: rest) → canonical line = line) ∧
    (classify line ∈ [.comment line, .dataJunk line, .bad line] → canonical line = line) ∧
    (∀ n, classify (canonical line) = .label n ↔ classify line = .label n) ∧
    (∀ m t, classify line = .instr m [t] →
      classify (canonical line) = .instr m [if isInt t = true then dec (intOf t) else t]) ∧
    ((∀ m t, classify line ≠ .instr m [t]) → classify (canonical line) = classify line) ∧
    decodeFetched (canonical line) = decodeFetched line ∧ dataValue (canonical line) = dataValue line ∧
    neededLabel (canonical line) = neededLabel line ∧ canonical (canonical line) = canonical line

/-- No rule distinguishes a line from its canonical text (30_encoding.md R78, 40_step_cycle.md R100, decision D23): a step commutes
with putting every line of the state in canonical text. -/
def Obligations.CanonicalTextIsInvisible : Prop :=
  ∀ s : State, s.mem.wf = true → step s.canonicalView = canonicalOutcome (step s)

/-- The opcode numbers are those of the table, 15 names nothing (30_encoding.md R75, decision D21), and a state with a table word
placed where it fetches runs the word's instruction at the next step (the model's reading of a table word: log 9). -/
def Obligations.TableWordsRunNext : Prop :=
  ([Mnemonic.LOM, .STO, .ADD, .SUB, .MUL, .AND, .OR, .XOR, .NOT, .INR, .INP, .OUT, .JUM, .JUZ, .FIN].map Mnemonic.number =
    [0, 1, 2, 3, 4, 5, 6, 7, 8, 9, 10, 11, 12, 13, 14]) ∧
  (∀ m : Mnemonic, mnemonicOfNumber m.number = some m) ∧ mnemonicOfNumber 15 = none ∧
  (∀ nbits w i, decodeTableWord nbits w = some i → i.mnemonic.number = BitVec.ofNat 4 w) ∧
  (∀ nbits w, w < 15 → decodeTableWord nbits w ≠ none) ∧
  ∀ (s : State) nbits w i, s.mem.wf = true → decodeTableWord nbits w = some i →
    (s.withFetchWord nbits w).Fetches i ∧ step (s.withFetchWord nbits w) = exec i (s.withFetchWord nbits w).fetch

/-! ## The step cycle -/

/-- A step runs the decoded instruction (40_step_cycle.md R90, R92, R96, R98): when the cell at `PC` decodes to `i`, the step is `exec`
of `i` on the state with the line in `IR`; `exec` itself moves `PC` (R99). -/
def Obligations.StepRunsTheDecodedInstruction : Prop :=
  ∀ (s : State) (i : Instr), s.engine = .running → 0 ≤ s.pc → s.pc < Config.memSize →
    decodeFetched (s.mem.read s.pc.toNat) = .run i → step s = exec i { s with ir := s.mem.read s.pc.toNat }

/-- A step of a `Finished` engine, and of a `Faulted` one (decision D6), changes nothing (40_step_cycle.md R91 (a)). -/
def Obligations.StepOfAnEndedEngineIsNoOp : Prop :=
  ∀ s : State, s.Ended → step s = .next s ∧ ∀ k request, runFor k request s = .next s

/-- What cannot be executed faults: `PC` outside memory, recording the empty line (40_step_cycle.md R91 (b), decision D5), and a line of
class `Bad` or `Empty` (R95, decision D8). -/
def Obligations.UnexecutableCellFaults : Prop :=
  (∀ s : State, s.engine = .running → (s.pc < 0 ∨ Config.memSize ≤ s.pc) →
    step s = .next { s with engine := .faulted, fault := some ⟨.invalidAddress, s.pc, []⟩ }) ∧
  ∀ (s : State) (line : Line), s.engine = .running → validAddr s.pc = true → s.mem.read s.pc.toNat = line →
    (classify line = .empty ∨ classify line = .bad line) →
    step s = .next { s with ir := line, engine := .faulted, fault := some ⟨.invalidOpcode, s.pc, line⟩ }

/-- Label and comment cells are passed over: `PC` advances by 1, `IR` holds the line, nothing else changes (40_step_cycle.md R93). A comment
is a line whose first token begins with `#`, a label a line of one other token that ends in `:` with a character before it (30_encoding.md
R65, R66; decisions D11, D12). -/
def Obligations.LabelAndCommentCellsAreSkipped : Prop :=
  ∀ (s : State) (line : Line), s.engine = .running → validAddr s.pc = true → s.mem.read s.pc.toNat = line →
    ((∃ name, classify line = .label name) ∨ classify line = .comment line ∨
      (∃ cs rest, tokens line = ('#' :: cs) :: rest) ∨
      ∃ name, name ≠ [] ∧ name.head? ≠ some '#' ∧ tokens line = [name ++ [':']]) →
    step s = .next { s with ir := line, pc := s.pc + 1 }

/-- A cell whose line begins with an integer is passed over in one step (40_step_cycle.md R94, decision D7). -/
def Obligations.DataCellsAreSkipped : Prop :=
  ∀ (s : State) (line : Line) (t : Token) (rest : List Token), s.engine = .running → validAddr s.pc = true →
    s.mem.read s.pc.toNat = line → tokens line = t :: rest → isInt t = true →
    step s = .next { s with ir := line, pc := s.pc + 1 }

/-- Decode (40_step_cycle.md R96): an instruction line is given to the decoder with `SYM`; if it fails the step faults with the decoder's
cause, `IR` holding the line, `PC` and `AR` unchanged; if it succeeds the step executes the opcode it yields with the operand's
integer value. That a failure is taken as this next state is the model's reading of 60_exceptions.md R186 and R187 (log 10; decisions D6,
D25), and the lookup of a label is split from the decoder (log 12). -/
def Obligations.DecodeFailureFaultsTheStep : Prop :=
  ∀ (s : State) (m : Mnemonic) (args : List Token), s.engine = .running → validAddr s.pc = true →
    classify s.currentLine = .instr m args →
    (∀ e, decodeLiteral s.sym m args = .error e →
      ∃ c, (e = .invalidOperand ∧ c = Cause.invalidOperand ∨ e = .unresolvedLabel ∧ c = Cause.unresolvedLabel) ∧
        step s = .next { s with ir := s.currentLine, engine := .faulted, fault := some ⟨c, s.pc, s.currentLine⟩ }) ∧
    ∀ b, decodeLiteral s.sym m args = .ok b →
      ∃ i, s.Fetches i ∧ step s = exec i { s with ir := s.currentLine } ∧ i.mnemonic.number = b.op ∧ operandValue s.sym i = .ok b.opnd

/-- Fetch (40_step_cycle.md R92): every step that passes the entry check leaves in `IR` the line the cell at `PC` held when the step
began, whatever its class, and the fetch changes no cell. -/
def Obligations.FetchWritesIr : Prop :=
  ∀ s t : State, s.engine = .running → validAddr s.pc = true → step s = .next t →
    t.ir = s.mem.read s.pc.toNat ∧ ((∀ a, ¬ s.Fetches (.sto a)) → t.mem = s.mem)

/-! ## The instructions -/

/-- `LOM a` (41_data_transfer.md R110): `DR` and `ACC` take the cell's integer; every other part of the state but `AR` and `PC` is
as before. The operand errors, the bound on negative addresses and the fault on a cell without a number are the spec's decisions D13 to D16
(log 11). -/
def Obligations.LomLoadsThroughDr : Prop :=
  ReadsCell .LOM ['L', 'O', 'M'] 0 .lom fun s v => { s with dr := v, acc := v }

/-- `STO a` (41_data_transfer.md R111, 20_memory.md R46): the cell's whole line becomes the canonical decimal text of `ACC`, whatever
it held, its data value is `ACC`, every other cell keeps its line; an address outside memory faults (decision D15; operand errors D13, D14: log 11). -/
def Obligations.StoStoresDecimalText : Prop :=
  SpelledAndNumbered .STO ['S', 'T', 'O'] 1 ∧ NeedsAddress .STO .sto ∧
  (∀ s a, validAddr a = false → FaultsWith (.sto a) s .invalidAddress a a) ∧
  ∀ s a, validAddr a = true → s.mem.wf = true →
    ∃ mem, exec (.sto a) s = .next { s with ar := a, mem := mem, pc := s.pc + 1 } ∧ mem.wf = true ∧
      mem.read a.toNat = dec s.acc ∧ dataValue (mem.read a.toNat) = some s.acc ∧ ∀ b, b ≠ a.toNat → mem.read b = s.mem.read b

/-- `ADD a` (42_arithmetic.md R120) and `SUB a` (R121): the exact sum and difference of `ACC` and the cell's integer; `DR` is untouched.
The operand errors and the read faults are the spec's decisions D13 to D16 (log 11). -/
def Obligations.AddAndSubAreExact : Prop :=
  ReadsCell .ADD ['A', 'D', 'D'] 2 .add (fun s v => { s with acc := s.acc + v }) ∧
  ReadsCell .SUB ['S', 'U', 'B'] 3 .sub (fun s v => { s with acc := s.acc - v })

/-- `MUL a` (42_arithmetic.md R122): with multiplier `m >= 1` the loop adds `DR` to `ACC` `m - 1` times and leaves `CTR = 0`; with
`m <= 0` the step hangs (decision D20): the model answers no next state (log 6). Operand errors and read faults: decisions D13 to D16 (log 11). -/
def Obligations.MulAddsDrRepeatedly : Prop :=
  SpelledAndNumbered .MUL ['M', 'U', 'L'] 4 ∧ NeedsAddress .MUL .mul ∧ ReadFaults .mul ∧
  ∀ s a m, s.CellHolds a m →
    (1 ≤ m → exec (.mul a) s = .next { s with ar := a, ctr := 0, acc := s.acc + (m - 1) * s.dr, pc := s.pc + 1 }) ∧
    (m ≤ 0 → exec (.mul a) s = .fault .hang)

/-- `AND a` (43_logic.md R130), `OR a` (R131), `XOR a` (R132): the operation of 00_scope.md R7, which in Lean is `Int.land`, `Int.lor`,
`Int.xor`, of `ACC` and the cell's integer. On negative integers it is the spec's decision D4; operand errors and read faults are D13 to D16
(log 11). -/
def Obligations.AndOrXorCombineWithTheCell : Prop :=
  ReadsCell .AND ['A', 'N', 'D'] 5 .and (fun s v => { s with acc := Int.land s.acc v }) ∧
  ReadsCell .OR ['O', 'R'] 6 .or (fun s v => { s with acc := Int.lor s.acc v }) ∧
  ReadsCell .XOR ['X', 'O', 'R'] 7 .xor (fun s v => { s with acc := Int.xor s.acc v })

/-- `INR` (42_arithmetic.md R123) adds one to `ACC`; `NOT` (43_logic.md R133) replaces it by `-ACC - 1`; a surplus numeric operand is
written to `AR` and otherwise ignored (decision D13; the complement of an integer is decision D4: log 11). -/
def Obligations.InrAndNotWorkOnAcc : Prop :=
  WorksOnAcc .INR ['I', 'N', 'R'] 9 .inr (fun v => v + 1) ∧ WorksOnAcc .NOT ['N', 'O', 'T'] 8 .not (fun v => -v - 1)

/-- `INP` (44_io.md R140): `ACC` takes `INPR`, which is neither changed nor cleared; with `INPR` unset the step faults (decision
D19; the surplus operand is decision D13: log 11). -/
def Obligations.InpCopiesInpr : Prop :=
  SpelledAndNumbered .INP ['I', 'N', 'P'] 10 ∧ AllowsSurplus .INP .inp ∧
  ∀ s o, (∀ v, s.inpr = some v → exec (.inp o) s = .next { s with ar := o.getD s.ar, acc := v, pc := s.pc + 1 }) ∧
    (s.inpr = none → FaultsWith (.inp o) s .unsetInput s.pc (o.getD s.ar))

/-- `OUT` (44_io.md R141): `OUTR` takes `ACC`, the output trace (decision D22) grows by it, `PC` advances, and then a configured hook is
called once and can read all of the committed state, memory included (50_host_interface.md R168, R169; the record of the calls is the
model's own: log 5; the surplus operand is decision D13: log 11). -/
def Obligations.OutEmitsAndCallsTheHook : Prop :=
  SpelledAndNumbered .OUT ['O', 'U', 'T'] 11 ∧ AllowsSurplus .OUT .out ∧
  ∀ s o, exec (.out o) s = .next
    { s with
      ar := o.getD s.ar
      outr := some s.acc
      outTrace := s.outTrace ++ [s.acc]
      pc := s.pc + 1
      hookCalls := s.hookCalls ++
        (if s.hook then
          [⟨s.acc, s.pc + 1, s.ir, o.getD s.ar, s.dr, s.ctr, s.inpr, some s.acc, s.engine, s.fault, s.mem⟩] else []) }

/-- `JUM t` (45_control.md R150): `AR` and `PC` take the resolved target, a number or a label's cell; a target outside memory faults
with `AR` written and `PC` unchanged; an undefined label faults at decode with `AR` unchanged (operand errors: decisions D13, D14; what a fault
writes: D6, D25: log 11). -/
def Obligations.JumJumps : Prop :=
  SpelledAndNumbered .JUM ['J', 'U', 'M'] 12 ∧ NeedsTarget .JUM .jum ∧
  ∀ s t, (∀ a, resolveTarget s.sym t = some a → validAddr a = true → exec (.jum t) s = .next { s with ar := a, pc := a }) ∧
    (∀ a, resolveTarget s.sym t = some a → validAddr a = false → FaultsWith (.jum t) s .invalidAddress a a) ∧
    (resolveTarget s.sym t = none → FaultsWith (.jum t) s .unresolvedLabel s.pc s.ar)

/-- `JUZ t` (45_control.md R151, R153): as `JUM` when `ACC = 0`, else `PC + 1`; the target is checked in both cases (decision D17; operand
errors: D13, D14: log 11). -/
def Obligations.JuzJumpsOnZero : Prop :=
  SpelledAndNumbered .JUZ ['J', 'U', 'Z'] 13 ∧ NeedsTarget .JUZ .juz ∧
  ∀ s t, (∀ a, resolveTarget s.sym t = some a → validAddr a = true →
      exec (.juz t) s = .next { s with ar := a, pc := if s.acc = 0 then a else s.pc + 1 }) ∧
    (∀ a, resolveTarget s.sym t = some a → validAddr a = false → FaultsWith (.juz t) s .invalidAddress a a) ∧
    (resolveTarget s.sym t = none → FaultsWith (.juz t) s .unresolvedLabel s.pc s.ar)

/-- `FIN` (45_control.md R152): `STATE` becomes `Finished`, `PC` and everything else (but `AR` for a surplus operand) is unchanged, and
every later step is a no-op (the surplus operand is decision D13: log 11). -/
def Obligations.FinFinishes : Prop :=
  SpelledAndNumbered .FIN ['F', 'I', 'N'] 14 ∧ AllowsSurplus .FIN .fin ∧
  ∀ s o, ∃ t, exec (.fin o) s = .next t ∧ t = { s with ar := o.getD s.ar, engine := .finished } ∧ step t = .next t

/-- The logic operations are those of the infinite two's complement (00_scope.md R7, decision D4): bit by bit, and the identities the
rule gives. -/
def Obligations.LogicIsInfiniteTwosComplement : Prop :=
  ∀ a b : Int,
    (∀ i, (bitAnd a b).testBit i = (a.testBit i && b.testBit i)) ∧
    (∀ i, (bitOr a b).testBit i = (a.testBit i || b.testBit i)) ∧
    (∀ i, (bitXor a b).testBit i = (a.testBit i ^^ b.testBit i)) ∧
    (∀ i, (bitNot a).testBit i = !a.testBit i) ∧
    bitNot a = -a - 1 ∧ a + b = bitXor a b + 2 * bitAnd a b ∧ bitOr a b = bitXor a b + bitAnd a b

/-! ## Which step writes and reads which state -/

/-- `ACC` is written by the ten instructions of 10_state.md R11 alone. -/
def Obligations.AccHasTenWriters : Prop :=
  ∀ s t : State, step s = .next t → t.acc ≠ s.acc →
    ∃ i, s.Fetches i ∧ i.mnemonic ∈ [Mnemonic.LOM, .ADD, .SUB, .MUL, .AND, .OR, .XOR, .NOT, .INR, .INP]

/-- `AR` (10_state.md R14, 40_step_cycle.md R97): a step whose decoded instruction carries an operand leaves in `AR` the operand's
resolved value, whatever the opcode, in range or not, faulting or not; every other step leaves `AR` alone. -/
def Obligations.ArHoldsTheLastOperand : Prop :=
  ∀ s t : State, step s = .next t →
    (∀ i a, s.Fetches i → operandValue s.sym i = .ok (some a) → t.ar = a) ∧
    ((∀ i a, s.Fetches i → operandValue s.sym i ≠ .ok (some a)) → t.ar = s.ar)

/-- `DR` (10_state.md R15): written only by `LOM`, with the value read; `LOM` passes it to `ACC` and `MUL` adds it; `ADD`, `SUB`, `AND`, `OR`,
`XOR` neither write nor read it. -/
def Obligations.DrIsWrittenByLomAlone : Prop :=
  (∀ s t : State, step s = .next t → t.dr ≠ s.dr → ∃ a, s.Fetches (.lom a) ∧ s.CellHolds a t.dr ∧ t.acc = t.dr) ∧
  (∀ s a v, s.CellHolds a v → ∃ t, exec (.lom a) s = .next t ∧ t.dr = v ∧ t.acc = t.dr) ∧
  (∀ s t a m, s.CellHolds a m → exec (.mul a) s = .next t → t.acc = s.acc + (m - 1) * s.dr) ∧
  ∀ i a s t d, i ∈ [Instr.add a, .sub a, .and a, .or a, .xor a] → exec i s = .next t →
    t.dr = s.dr ∧ exec i { s with dr := d } = .next { t with dr := d }

/-- `CTR` (10_state.md R16): written only by `MUL`, zero after a `MUL` that completes, and read by nothing else: with another value in it,
every other instruction does the same (but for an `OUT` that calls the hook, through which the host reads every register). -/
def Obligations.CtrBelongsToMul : Prop :=
  (∀ s t : State, step s = .next t → t.ctr ≠ s.ctr → ∃ a, s.Fetches (.mul a)) ∧
  (∀ s t a m, s.CellHolds a m → exec (.mul a) s = .next t → t.ctr = 0) ∧
  ∀ i s t c, i.mnemonic ≠ .MUL → (i.mnemonic = .OUT → s.hook = false) → exec i s = .next t →
    exec i { s with ctr := c } = .next { t with ctr := c }

/-- No step writes `INPR` (10_state.md R17), the symbol table (R23, derived there) or the hook setting (50_host_interface.md R168). -/
def Obligations.StepsLeaveInprSymAndHook : Prop :=
  ∀ s t : State, step s = .next t → t.inpr = s.inpr ∧ t.sym = s.sym ∧ t.hook = s.hook

/-- `OUTR` (10_state.md R18): written only by `OUT`, with the value of `ACC`, and read by no instruction; the host reads it. -/
def Obligations.OutrIsWrittenByOutAlone : Prop :=
  (∀ s t : State, step s = .next t → t.outr ≠ s.outr → ∃ o, s.Fetches (.out o) ∧ t.outr = some s.acc) ∧
  ∀ i s t x, exec i s = .next t →
    exec i { s with outr := x } = .next { t with outr := if i.mnemonic = .OUT then t.outr else x } ∧
      t.view.readReg .OUTR = regValueOf t.outr

/-- `IR` is read by nothing (10_state.md R13): a step of a running engine inside memory does the same whatever `IR` held. -/
def Obligations.IrIsReadByNothing : Prop :=
  ∀ (s : State) (l : Line), s.engine = .running → validAddr s.pc = true → step { s with ir := l } = step s

/-- Memory (10_state.md R22): a sequence of `MEMSIZE` cells that is never resized; load fills it, and a step changes a cell only by `STO`, which
leaves decimal text in the one cell it addresses: no other instruction, no fetch and no fault writes it. That load and step give memory in
canonical form is the model's form of memory (log 1). -/
def Obligations.OnlyStoWritesMemory : Prop :=
  (∀ lines init s, load lines init = .ok s → s.mem.wf = true ∧ ∀ i, s.mem.read i = (lines[i]?).getD []) ∧
  ∀ s t : State, step s = .next t →
    (s.mem.wf = true → t.mem.wf = true) ∧ t.view.readMemory.length = Config.memSize ∧
    ∀ b, t.mem.read b ≠ s.mem.read b →
      ∃ a, s.Fetches (.sto a) ∧ validAddr a = true ∧ b = a.toNat ∧ t.mem.read b = dec s.acc

/-- Sequencing (40_step_cycle.md R99): after a handler that completes, `JUM` has set `PC` to its target, `JUZ` to its target or `PC + 1`, `FIN`
has left `PC` alone, and each of the other twelve opcodes has added 1, with no wrap: before the `OUT` hook,
which sees the new `PC` (through the model's record of the hook calls, log 5), and past the last cell to `MEMSIZE`, where the next step's entry
check faults (decision D5). -/
def Obligations.HandlersSequencePc : Prop :=
  ∀ i (s t : State), s.engine = .running → exec i s = .next t → t.engine ≠ .faulted →
    (∀ x, i = .jum x → resolveTarget s.sym x = some t.pc) ∧
    (∀ x, i = .juz x → if s.acc = 0 then resolveTarget s.sym x = some t.pc else t.pc = s.pc + 1) ∧
    (i.mnemonic = .FIN → t.pc = s.pc) ∧
    (i.mnemonic ∉ [Mnemonic.JUM, .JUZ, .FIN] → t.pc = s.pc + 1) ∧
    (i.mnemonic = .OUT → s.hook = true → t.hookCalls.getLast?.map HostView.pc = some (s.pc + 1)) ∧
    (t.engine = .running → t.pc = Config.memSize → ∃ u, step t = .next u ∧ u.engine = .faulted ∧ u.pc = t.pc)

/-- The frame of the seven instructions that read a cell (41_data_transfer.md, 42_arithmetic.md, 43_logic.md): `AR` is the operand; `DR` may
change for `LOM` alone, `CTR` for `MUL` alone; every other register but `ACC` and `PC`, every byte of memory, the symbol table, the traces are
unchanged, and `STATE` and `FAULT` unless the instruction faults. -/
def Obligations.FrameOfCellReaders : Prop :=
  ∀ i a (s t : State), i ∈ cellReaders a → exec i s = .next t →
    t.ar = a ∧ t.ir = s.ir ∧ t.inpr = s.inpr ∧ t.outr = s.outr ∧ t.sym = s.sym ∧ t.outTrace = s.outTrace ∧ t.hook = s.hook ∧
    t.hookCalls = s.hookCalls ∧ (∀ b, t.mem.read b = s.mem.read b) ∧ (i.mnemonic ≠ .LOM → t.dr = s.dr) ∧
    (i.mnemonic ≠ .MUL → t.ctr = s.ctr) ∧ (t.engine = s.engine ∧ t.fault = s.fault ∨ t.engine = .faulted ∧ t.acc = s.acc ∧ t.pc = s.pc)

/-- The frame of `STO` (41_data_transfer.md R111): `AR` is the operand; every other register but `PC` is unchanged; every cell but the one at the
address stored to, which is the operand, reads as before, and every cell does when the address is outside memory. -/
def Obligations.FrameOfStore : Prop :=
  ∀ a (s t : State), exec (.sto a) s = .next t →
    t.ar = a ∧ t.acc = s.acc ∧ t.ir = s.ir ∧ t.dr = s.dr ∧ t.ctr = s.ctr ∧ t.inpr = s.inpr ∧ t.outr = s.outr ∧ t.sym = s.sym ∧
    t.outTrace = s.outTrace ∧ t.hook = s.hook ∧ t.hookCalls = s.hookCalls ∧
    (∀ b, (validAddr a = true → b ≠ a.toNat) → t.mem.read b = s.mem.read b) ∧
    (t.engine = s.engine ∧ t.fault = s.fault ∨ t.engine = .faulted ∧ t.pc = s.pc)

/-- The frame of the instructions that access no memory (`NOT INR INP OUT JUM JUZ FIN`; 42_arithmetic.md R123, 43_logic.md R133, 44_io.md,
45_control.md): `AR` is the resolved operand if there is one; `ACC` may change for `NOT INR INP` alone, `OUTR`, the trace and the hook calls
for `OUT` alone, `STATE` for `FIN` and a fault alone; the rest but `PC` is unchanged. -/
def Obligations.FrameOfRegisterForms : Prop :=
  ∀ i (s t : State), i.mnemonic ∈ [Mnemonic.NOT, .INR, .INP, .OUT, .JUM, .JUZ, .FIN] → exec i s = .next t →
    (∀ o, operandValue s.sym i = .ok o → t.ar = o.getD s.ar) ∧
    t.ir = s.ir ∧ t.dr = s.dr ∧ t.ctr = s.ctr ∧ t.inpr = s.inpr ∧ t.sym = s.sym ∧ t.hook = s.hook ∧
    (∀ b, t.mem.read b = s.mem.read b) ∧
    (i.mnemonic ∉ [Mnemonic.NOT, .INR, .INP] → t.acc = s.acc) ∧
    (i.mnemonic ≠ .OUT → t.outr = s.outr ∧ t.outTrace = s.outTrace ∧ t.hookCalls = s.hookCalls) ∧
    (t.fault = s.fault ∧ (i.mnemonic ≠ .FIN → t.engine = s.engine) ∨ t.engine = .faulted ∧ t.acc = s.acc ∧ t.pc = s.pc)

/-! ## Faults, hang and the end of a run -/

/-- The state after a fault (60_exceptions.md R186, R187, decisions D6, D25) and the record of R180: at most `IR` and `AR` have been written besides
`STATE` and `FAULT`; the record holds the line at `PC` and, by its cause, the address `PC` or `AR`. -/
def Obligations.FaultingStepIsPrecise : Prop :=
  ∀ s t : State, s.engine = .running → step s = .next t → t.engine = .faulted →
    t = { s with ir := t.ir, ar := t.ar, engine := .faulted, fault := t.fault } ∧
    t.ir = (if validAddr s.pc = true then s.currentLine else s.ir) ∧
    ∃ r, t.fault = some r ∧ r.line = s.currentLine ∧
      (r.cause ∈ [Cause.invalidOpcode, .unresolvedLabel, .invalidOperand] → r.address = s.pc ∧ t.ar = s.ar) ∧
      (r.cause = .unsetInput → r.address = s.pc) ∧
      (r.cause = .nonNumericCell → r.address = t.ar) ∧
      (r.cause = .invalidAddress → r.address = if validAddr s.pc = true then t.ar else s.pc)

/-- A step either answers a next state or hangs, and it hangs exactly for a `MUL` whose multiplier cell holds zero or less
(00_scope.md R9, 42_arithmetic.md R122, decision D20; the model's form of a hang: log 6). No step is refused. -/
def Obligations.OnlyMulHangs : Prop :=
  ∀ s : State, ((∀ t, step s ≠ .next t) ↔ ∃ a m, s.Fetches (.mul a) ∧ s.CellHolds a m ∧ m ≤ 0) ∧
    ((∀ t, step s ≠ .next t) → step s = .fault .hang) ∧ ∀ r, step s ≠ .refused r

/-- A step of a running engine ends `Finished` exactly when it executes `FIN` (10_state.md R20, 40_step_cycle.md R103, 90_conflicts.md C6);
a faulting step does not (decision D6). -/
def Obligations.OnlyFinFinishes : Prop :=
  ∀ s t : State, s.engine = .running → step s = .next t → (t.engine = .finished ↔ ∃ o, s.Fetches (.fin o))

/-- Run-to-completion (40_step_cycle.md R102): a run of a running engine is a step and then the rest of the run, and has no end where that
step hangs; once a run has ended, more steps change nothing; a run of `j + k` steps is a run of `j` steps and then of `k`. The fuel is the
model's (log 17). -/
def Obligations.RunsComposeAndStay : Prop :=
  (∀ (s : State) k, s.engine = .running →
    (∀ t, step s = .next t → runFor (k + 1) none s = runFor k none t) ∧
    ∀ r, step s = .fault r → ∀ request, runFor (k + 1) request s = .fault r) ∧
  ∀ (j k : Nat) (s t : State),
    (runFor j none s = .next t → runFor (j + k) none s = runFor k none t) ∧
    (runFor j none s = .next t → t.Ended → runFor (j + k) none s = .next t) ∧
    ∀ r, runFor j none s = .fault r → runFor (j + k) none s = .fault r

/-- `force_finish` in a run (50_host_interface.md R165, R167; its delivery between any two steps is decision D30, the form of the request log 17):
a request that comes during step `j + 1` ends the run after that step, however much fuel is left: the state is that of the `j + 1` steps
with a running engine made `Finished`; it breaks no step that hangs, and it is not honoured before that step ends. -/
def Obligations.ForceFinishEndsARunBetweenSteps : Prop :=
  ∀ (j k : Nat) (s : State),
    (∀ t, runFor (j + 1) none s = .next t →
      runFor (j + 1 + k) (some j) s = .next { t with engine := if t.engine = .running then .finished else t.engine }) ∧
    (∀ r, runFor (j + 1) none s = .fault r → runFor (j + 1 + k) (some j) s = .fault r) ∧
    ∀ i, i ≤ j → runFor i (some j) s = runFor i none s

/-! ## Invariants -/

/-- Every step keeps the invariant `State.Inv`: canonical memory (the model's form of memory: log 1); `0 <= PC <= MEMSIZE` (10_state.md R12); a
fault record exactly when `Faulted` (R21, decision D6); `OUTR` the last value of the trace (R18, R24, decision D22); one hook call for each
`OUT` where a hook is configured, each with canonical memory (44_io.md R141; the record of the calls is the model's own: log 5); labels in
memory (R23). -/
def Obligations.StepKeepsTheInvariant : Prop :=
  ∀ s t : State, s.Inv → step s = .next t → t.Inv

/-- The invariant holds after reset, whose state is the launch of the program of no lines with the default launch values (the spec's decision
D18 and the model's choices: log 2, 3, 4). -/
def Obligations.ResetMeetsTheInvariant : Prop :=
  State.reset.Inv ∧ load [] {} = .ok State.reset ∧ State.reset.engine = .running ∧ State.reset.pc = 0 ∧
    State.reset.inpr = none ∧ State.reset.outr = none ∧ ∀ a, State.reset.mem.read a = []

/-- After every accepted load (70_reset_and_hazards.md R210, R213; 10_state.md R27) every jump line's label is in the symbol table, and the
invariant `State.Inv` holds, with its canonical memory (log 1), its record of the hook calls (log 5), `FAULT` as `Faulted` says (decision
D6) and the output trace (decision D22). -/
def Obligations.LoadMeetsTheInvariant : Prop :=
  ∀ lines init s, load lines init = .ok s → s.Inv ∧ s.LabelsResolve

/-- `UnresolvedLabel` cannot happen after a successful load (60_exceptions.md R182): every load establishes `LabelsResolve`, every step keeps
it, and in a state that has it no step raises that cause. -/
def Obligations.LoadedLabelsAlwaysResolve : Prop :=
  (∀ lines init s, load lines init = .ok s → s.LabelsResolve) ∧
  ∀ s t : State, s.LabelsResolve → step s = .next t →
    t.LabelsResolve ∧ (s.engine = .running → t.engine = .faulted → ∀ r, t.fault = some r → r.cause ≠ .unresolvedLabel)

/-! ## Load and the host -/

/-- `ProgramTooLarge` (70_reset_and_hazards.md R211): exactly the programs of more than `MEMSIZE` lines are rejected for their size, whatever
the lines hold; the program of no lines is accepted and its first step faults with `InvalidOpcode` (decision D8). -/
def Obligations.ProgramTooLargeIsRejected : Prop :=
  (∀ lines init, load lines init = .error .programTooLarge ↔ Config.memSize < lines.length) ∧
  ∀ init, ∃ s, load [] init = .ok s ∧ (∀ a, classify (s.mem.read a) = .empty) ∧
    step s = .next { s with ir := [], engine := .faulted, fault := some ⟨.invalidOpcode, 0, []⟩ }

/-- Load accepts exactly the programs that fit, define no label twice and name no undefined label in a jump line (70_reset_and_hazards.md
R211, R213, decisions D27, D28): the label of a jump line is its one operand token where that is no integer. -/
def Obligations.LoadAcceptsExactlyTheValidPrograms : Prop :=
  ∀ lines init, (∃ s, load lines init = .ok s) ↔
    lines.length ≤ Config.memSize ∧
    (∀ (i j : Nat) (k l : Line) (n : Token), lines[i]? = some k → lines[j]? = some l →
      classify k = .label n → classify l = .label n → i = j) ∧
    ∀ l ∈ lines, ∀ m t, m ∈ [Mnemonic.JUM, .JUZ] → classify l = .instr m [t] → isInt t = false → ∃ k ∈ lines, classify k = .label t

/-- The state after an accepted load (10_state.md R27, 70_reset_and_hazards.md R210, R212; D12, D18): line `i` stands in cell `i`, the other cells
are empty, a label is bound to the cell of its own definition, the registers hold the launch values. -/
def Obligations.LoadBuildsTheLaunchState : Prop :=
  ∀ lines init s, load lines init = .ok s →
    (∀ i, s.mem.read i = (lines[i]?).getD []) ∧
    (∀ n i, lookupLabel s.sym n = some i ↔ ∃ l, lines[i]? = some l ∧ classify l = .label n) ∧
    s.engine = .running ∧ s.pc = 0 ∧ s.ir = [] ∧ s.acc = init.acc ∧ s.ar = init.ar ∧ s.dr = init.dr ∧ s.ctr = init.ctr ∧
    s.inpr = init.inpr ∧ s.outr = none ∧ s.fault = none ∧ s.outTrace = [] ∧ s.hook = init.hook ∧ s.hookCalls = []

/-- The host's moves between steps (50_host_interface.md R162, R163, R166, R167; D24, D27, D30): `set_inpr` writes `INPR` alone, the latest value
counts, and an engine that will not step again is left alone; `force_finish` finishes a running engine and changes nothing else, and has no
effect on an ended one; an accepted load leaves its state alone, a rejected one no engine, whatever engine there was; reset is load. -/
def Obligations.HostMovesBetweenSteps : Prop :=
  (∀ (s : State) v w, s.engine = .running →
    HostOp.apply (.setInpr v) (some s) = .next (.done, some { s with inpr := some v }) ∧
    HostOp.apply (.setInpr w) (some { s with inpr := some v }) = .next (.done, some { s with inpr := some w })) ∧
  (∀ (s : State) v, s.Ended → HostOp.apply (.setInpr v) (some s) = .next (.done, some s)) ∧
  (∀ s : State, s.engine = .running → HostOp.apply .forceFinish (some s) = .next (.done, some { s with engine := .finished })) ∧
  (∀ s : State, s.Ended → HostOp.apply .forceFinish (some s) = .next (.done, some s)) ∧
  (∀ lines init s engine, load lines init = .ok s → HostOp.apply (.load lines init) engine = .next (.accepted, some s)) ∧
  (∀ lines init e engine, load lines init = .error e →
    HostOp.apply (.load lines init) engine = .next (.rejected e, none)) ∧
  ∀ lines init engine, HostOp.apply (.reset lines init) engine = HostOp.apply (.load lines init) engine

/-- Steps, runs and read-outs as operations of the host (50_host_interface.md R164, R165, R169, R171): a step gives back the one of five
reports that says what became of the engine, a run the state it ended in, and a run that has not returned within the model's fuel says so
(log 17); a read-out gives each of the eight registers, any cell's line, all of memory in order, `STATE` or `FAULT` (decision D6) and changes
nothing, and inside the hook it gives what it gives after the step (decision D22; log 5); with no engine every operation but load and reset
gives `noEngine` (the model's choice: log 18). -/
def Obligations.HostStepsRunsAndReads : Prop :=
  (∀ s t : State, step s = .next t → ∃ r, HostOp.apply .step (some s) = .next (.stepped r, some t) ∧
    (s.engine = .running → t.engine = .running → r = .stillRunning) ∧
    (s.engine = .running → t.engine = .finished → r = .becameFinished) ∧
    (s.engine = .running → t.engine = .faulted → r = .becameFaulted t.fault) ∧
    (s.engine = .finished → r = .alreadyFinished) ∧ (s.engine = .faulted → r = .alreadyFaulted)) ∧
  (∀ (s t : State) fuel request, runFor fuel request s = .next t →
    HostOp.apply (.run fuel request) (some s) =
      .next (if t.engine = .running then .unreturned else .ended t.engine, some t)) ∧
  (∀ (s : State) r, step s = .fault r → HostOp.apply .step (some s) = .fault r) ∧
  (∀ (s : State) fuel request r, runFor fuel request s = .fault r → HostOp.apply (.run fuel request) (some s) = .fault r) ∧
  (∀ (s : State) n v,
    (n, v) ∈ [(RegName.ACC, RegValue.int s.acc), (.PC, .int s.pc), (.IR, .text s.ir), (.AR, .int s.ar), (.DR, .int s.dr),
      (.CTR, .int s.ctr), (.INPR, s.inpr.elim .unset .int), (.OUTR, s.outr.elim .unset .int)] →
    HostOp.apply (.read (.reg n)) (some s) = .next (.value (.reg v), some s)) ∧
  (∀ (s : State) (a : Fin Config.memSize),
    HostOp.apply (.read (.cell a)) (some s) = .next (.value (.line (s.mem.read a)), some s) ∧
    HostOp.apply (.read .engineState) (some s) = .next (.value (.engineState s.engine), some s) ∧
    HostOp.apply (.read .faultRecord) (some s) = .next (.value (.faultRecord s.fault), some s)) ∧
  (∀ s : State, ∃ lines : List Line, HostOp.apply (.read .memory) (some s) = .next (.value (.lines lines), some s) ∧
    lines.length = Config.memSize ∧ ∀ a, a < Config.memSize → lines[a]? = some (s.mem.read a)) ∧
  (∀ (s t : State) o, s.hook = true → exec (.out o) s = .next t → t.hookCalls = s.hookCalls ++ [t.view] ∧
    ∀ r, HostOp.apply (.read r) (some t) = .next (.value (t.view.readOut r), some t)) ∧
  ∀ op : HostOp, (∀ lines init, op ≠ .load lines init ∧ op ≠ .reset lines init) → HostOp.apply op none = .next (.noEngine, none)

/-! ## Programs' idioms -/

/-- `STO addr` then `LOM addr` gives back the accumulator (41_data_transfer.md R110; 95_test_vectors.md S3), and `LOM addr` then `OUT` emits the
cell's integer (S2). -/
def Obligations.StoreLoadAndOutputRoundTrip : Prop :=
  (∀ (s : State) a, validAddr a = true → s.mem.wf = true →
    ∃ t, exec (.sto a) s = .next t ∧ exec (.lom a) t = .next { t with ar := a, dr := s.acc, acc := s.acc, pc := t.pc + 1 }) ∧
  ∀ (s : State) a v, s.CellHolds a v →
    ∃ t u, exec (.lom a) s = .next t ∧ exec (.out none) t = .next u ∧ u.outr = some v ∧ u.outTrace = s.outTrace ++ [v]

/-- The product idiom (70_reset_and_hazards.md R220; with R221's multiplier of 1 or more): `LOM x` leaves `M[x]` in `ACC` and `DR`, a step that
leaves `ACC` as it was leaves `DR` so too, and a `MUL y` that finds them so leaves `M[x] * M[y]` in `ACC`; with any other preparation it leaves
`ACC + (M[y] - 1) * DR`. -/
def Obligations.LomThenMulMultiplies : Prop :=
  (∀ (s : State) x y v m, s.CellHolds x v → s.CellHolds y m → 1 ≤ m →
    (∃ t u, exec (.lom x) s = .next t ∧ t.acc = v ∧ t.dr = v ∧ exec (.mul y) t = .next u ∧ u.acc = v * m) ∧
    ∃ u, exec (.mul y) s = .next u ∧ u.acc = s.acc + (m - 1) * s.dr ∧ (s.acc = v → s.dr = v → u.acc = v * m)) ∧
  ∀ (s t : State) v, s.acc = v → s.dr = v → step s = .next t → t.acc = v → t.dr = v
end

