-- ==== Sys2Proof/Laws/Text.lean ====
section
/-! SUPPORT. Laws of text: decimal text reads back, and tokens come apart where the spaces are. -/

namespace Sys2Proof.Machine

/-! ## Digits -/

theorem digitChar_toNat {d : Nat} (h : d < 10) : (digitChar d).toNat = 48 + d := by
  interval_cases d <;> rfl

theorem isDigit_digitChar {d : Nat} (h : d < 10) : isDigit (digitChar d) = true := by
  interval_cases d <;> rfl

theorem digitVal_digitChar {d : Nat} (h : d < 10) : digitVal (digitChar d) = d := by
  interval_cases d <;> rfl

theorem digitsOf_all (k n : Nat) : (digitsOf k n).all isDigit = true := by
  induction k generalizing n with
  | zero => simp [digitsOf, isDigit_digitChar (Nat.mod_lt n (by omega))]
  | succ k ih =>
    by_cases h : n < 10
    · simp [digitsOf, h, isDigit_digitChar h]
    · simp only [digitsOf, if_neg h, List.all_append, ih, Bool.true_and]
      simp [isDigit_digitChar (Nat.mod_lt n (by omega))]

theorem digitsOf_ne_nil (k n : Nat) : digitsOf k n ≠ [] := by
  cases k with
  | zero => simp [digitsOf]
  | succ k => by_cases h : n < 10 <;> simp [digitsOf, h]

theorem natOf_append (ds : Line) (c : Char) : natOf (ds ++ [c]) = 10 * natOf ds + digitVal c := by
  simp [natOf, List.foldl_append]

/-- Reading back the digits of a number that has at most `k + 1` of them gives the number. -/
theorem natOf_digitsOf {k n : Nat} (h : n < 10 ^ (k + 1)) : natOf (digitsOf k n) = n := by
  induction k generalizing n with
  | zero =>
    have hn : n < 10 := by simpa using h
    simp [digitsOf, natOf, Nat.mod_eq_of_lt hn, digitVal_digitChar hn]
  | succ k ih =>
    by_cases h10 : n < 10
    · simp [digitsOf, h10, natOf, digitVal_digitChar h10]
    · have hdiv : n / 10 < 10 ^ (k + 1) := by
        rw [Nat.div_lt_iff_lt_mul (by omega)]
        calc n < 10 ^ (k + 1 + 1) := h
          _ = 10 ^ (k + 1) * 10 := by rw [Nat.pow_succ]
      simp only [digitsOf, if_neg h10, natOf_append, ih hdiv, digitVal_digitChar (Nat.mod_lt n (by omega : 10 > 0))]
      omega

theorem natOf_decNat (n : Nat) : natOf (decNat n) = n := by
  refine natOf_digitsOf ?_
  calc n < 2 ^ (Nat.log2 n + 1) := Nat.lt_log2_self
    _ ≤ 10 ^ (Nat.log2 n + 1) := Nat.pow_le_pow_left (by omega) _

theorem isDigits_decNat (n : Nat) : isDigits (decNat n) = true := by
  simp [isDigits, decNat, digitsOf_all, digitsOf_ne_nil]

/-! ## Signed decimal text -/

theorem hasMinus_of_digits {ds : Line} (h : ds.all isDigit = true) : hasMinus ds = false := by
  cases ds with
  | nil => rfl
  | cons c cs =>
    simp only [List.all_cons, Bool.and_eq_true] at h
    have hc := h.1
    simp only [hasMinus, beq_eq_false_iff_ne, ne_eq]
    rintro rfl
    exact absurd hc (by decide)

theorem hasMinus_decNat (n : Nat) : hasMinus (decNat n) = false := hasMinus_of_digits (digitsOf_all _ n)

theorem unsignedPart_dec (v : Int) : unsignedPart (dec v) = decNat v.natAbs := by
  by_cases h : v < 0
  · simp [dec, h, unsignedPart, hasMinus]
  · simp [dec, h, unsignedPart, hasMinus_decNat]

/-- The canonical text of an integer is an integer's text (00_scope.md R8). -/
@[simp] theorem isInt_dec (v : Int) : isInt (dec v) = true := by
  simp [isInt, unsignedPart_dec, isDigits_decNat]

/-- `intOf(dec(v)) = v` (00_scope.md R8). -/
@[simp] theorem intOf_dec (v : Int) : intOf (dec v) = v := by
  simp only [intOf, unsignedPart_dec, natOf_decNat]
  by_cases h : v < 0
  · simp only [dec, if_pos h, hasMinus, beq_self_eq_true, if_true]
    omega
  · simp only [dec, if_neg h, hasMinus_decNat, Bool.false_eq_true, if_false]
    omega

theorem isDigit_not_space {c : Char} (h : isDigit c = true) : isSpace c = false := by
  simp only [isDigit, Bool.and_eq_true, decide_eq_true_eq] at h
  simp only [isSpace, Bool.or_eq_false_iff, beq_eq_false_iff_ne, ne_eq]
  constructor <;> rintro rfl
  · exact absurd h.1 (by decide)
  · exact absurd h.1 (by decide)

theorem isDigit_not_lineEnd {c : Char} (h : isDigit c = true) : isLineEnd c = false := by
  simp only [isDigit, Bool.and_eq_true, decide_eq_true_eq] at h
  simp only [isLineEnd, Bool.or_eq_false_iff, beq_eq_false_iff_ne, ne_eq]
  constructor <;> rintro rfl
  · exact absurd h.1 (by decide)
  · exact absurd h.1 (by decide)

/-- The characters of an integer's text: none is a space, a line end, `#` or `:`. -/
theorem isInt_chars {t : Token} (h : isInt t = true) {c : Char} (hc : c ∈ t) : isDigit c = true ∨ c = '-' := by
  cases t with
  | nil => cases hc
  | cons d ds =>
    by_cases hm : d = '-'
    · subst hm
      simp only [isInt, unsignedPart, hasMinus, beq_self_eq_true, if_true, List.tail_cons, isDigits, Bool.and_eq_true] at h
      rcases List.mem_cons.1 hc with rfl | hin
      · exact Or.inr rfl
      · exact Or.inl (List.all_eq_true.1 h.2 c hin)
    · simp only [isInt, unsignedPart, hasMinus, beq_iff_eq, hm, if_false, isDigits, Bool.and_eq_true] at h
      exact Or.inl (List.all_eq_true.1 h.2 c hc)

theorem isInt_not_space {t : Token} (h : isInt t = true) : ∀ c ∈ t, isSpace c = false := by
  intro c hc
  rcases isInt_chars h hc with hd | rfl
  · exact isDigit_not_space hd
  · rfl

theorem isInt_ne_nil {t : Token} (h : isInt t = true) : t ≠ [] := by
  rintro rfl
  exact absurd h (by decide)

theorem isInt_isLine {t : Token} (h : isInt t = true) : isLine t = true := by
  simp only [isLine, List.all_eq_true, Bool.not_eq_true']
  intro c hc
  rcases isInt_chars h hc with hd | rfl
  · exact isDigit_not_lineEnd hd
  · rfl

theorem dec_ne_nil (v : Int) : dec v ≠ [] := isInt_ne_nil (isInt_dec v)

/-! ## Tokens -/

/-- A text that can be one token: not empty, no whitespace. -/
abbrev IsToken (t : Token) : Prop := t ≠ [] ∧ ∀ c ∈ t, isSpace c = false

theorem isToken_of_isInt {t : Token} (h : isInt t = true) : IsToken t := ⟨isInt_ne_nil h, isInt_not_space h⟩

@[simp] theorem tokens_nil : tokens [] = [] := rfl

theorem tokens_space {c : Char} (h : isSpace c = true) (l : Line) : tokens (c :: l) = tokens l := by
  simp [tokens, h]

/-- Leading whitespace produces no token. -/
theorem tokens_spaces {w : Line} (h : ∀ c ∈ w, isSpace c = true) (l : Line) : tokens (w ++ l) = tokens l := by
  induction w with
  | nil => rfl
  | cons c cs ih =>
    rw [List.cons_append, tokens_space (h c (List.mem_cons_self ..))]
    exact ih fun d hd => h d (List.mem_cons_of_mem _ hd)

/-- A run of non-whitespace characters at the start of a line, ended by whitespace or the end, is the first token. -/
theorem tokens_run {t : Token} (h : IsToken t) {l : Line} (hl : startsToken l = false) : tokens (t ++ l) = t :: tokens l := by
  obtain ⟨hne, hns⟩ := h
  induction t with
  | nil => exact absurd rfl hne
  | cons c cs ih =>
    have hc : isSpace c = false := hns c (List.mem_cons_self ..)
    cases cs with
    | nil => simp [tokens, hc, hl, glueChar]
    | cons d ds =>
      have hd : isSpace d = false := hns d (List.mem_cons_of_mem _ (List.mem_cons_self ..))
      have ih' := ih (by simp) fun e he => hns e (List.mem_cons_of_mem _ he)
      have hs : startsToken ((d :: ds) ++ l) = true := by simp [startsToken, hd]
      rw [List.cons_append, tokens, if_neg (by simp [hc]), hs, ih']
      rfl

theorem tokens_token {t : Token} (h : IsToken t) : tokens t = [t] := by
  simpa using tokens_run h (l := []) rfl

/-- Every token is not empty and holds no whitespace. -/
theorem tokens_all (l : Line) : ∀ t ∈ tokens l, IsToken t := by
  induction l with
  | nil => simp
  | cons c cs ih =>
    by_cases hc : isSpace c = true
    · rw [tokens_space hc]; exact ih
    · have hcf : isSpace c = false := by simpa using hc
      rw [tokens, if_neg hc]
      cases hs : startsToken cs <;> cases ht : tokens cs with
      | nil => simp [glueChar, IsToken, hcf]
      | cons t ts =>
        rw [ht] at ih
        intro u hu
        simp only [glueChar, List.mem_cons] at hu
        first
        | rcases hu with rfl | hu
          · refine ⟨by simp, ?_⟩
            intro d hd
            rcases List.mem_cons.1 hd with rfl | hd
            · exact hcf
            · first
              | exact (ih t (List.mem_cons_self ..)).2 d hd
              | simp at hd
          · first
            | exact ih u (List.mem_cons_of_mem _ hu)
            | exact ih u (List.mem_cons.2 hu)

/-- The tokens of a line hold only characters of the line. -/
theorem tokens_chars (l : Line) : ∀ t ∈ tokens l, ∀ c ∈ t, c ∈ l := by
  induction l with
  | nil => simp
  | cons c cs ih =>
    by_cases hc : isSpace c = true
    · rw [tokens_space hc]
      exact fun t ht d hd => List.mem_cons_of_mem _ (ih t ht d hd)
    · rw [tokens, if_neg hc]
      cases hs : startsToken cs <;> cases ht : tokens cs with
      | nil => simp [glueChar]
      | cons t ts =>
        rw [ht] at ih
        intro u hu d hd
        simp only [glueChar, List.mem_cons] at hu
        rcases hu with rfl | hu
        · rcases List.mem_cons.1 hd with rfl | hd
          · exact List.mem_cons_self ..
          · first
            | exact List.mem_cons_of_mem _ (ih t (List.mem_cons_self ..) d hd)
            | simp at hd
        · first
          | exact List.mem_cons_of_mem _ (ih u (List.mem_cons_of_mem _ hu) d hd)
          | exact List.mem_cons_of_mem _ (ih u (List.mem_cons.2 hu) d hd)

end Sys2Proof.Machine
end

