-- ==== Sys2Proof/Laws/Decode.lean ====
section
/-! SUPPORT. Laws of the decoder: mnemonics, the class of a line built from tokens, and of an encoded instruction. -/

namespace Sys2Proof

open Machine

@[simp] theorem mnemonicOf_text (m : Mnemonic) : mnemonicOf m.text = some m := by
  cases m <;> rfl

/-- A token is a mnemonic exactly when it is spelled as one (30_encoding.md R63). -/
theorem mnemonicOf_eq_some {t : Token} {m : Mnemonic} : mnemonicOf t = some m ↔ t = m.text := by
  constructor
  · intro h
    have := List.find?_some h
    exact (beq_iff_eq.1 this).symm
  · rintro rfl
    exact mnemonicOf_text m

theorem mnemonic_isToken (m : Mnemonic) : IsToken m.text := by
  cases m <;> exact ⟨by simp [Mnemonic.text], by simp [Mnemonic.text, isSpace]⟩

theorem mnemonic_not_comment (m : Mnemonic) : isCommentToken m.text = false := by
  cases m <;> rfl

theorem mnemonic_not_label (m : Mnemonic) : isLabelToken m.text = false := by
  cases m <;> rfl

theorem mnemonic_not_int (m : Mnemonic) : isInt m.text = false := by
  cases m <;> rfl

/-- A line whose first token is a mnemonic is an instruction line. -/
theorem classify_of_tokens {line : Line} {m : Mnemonic} {args : List Token} (h : tokens line = m.text :: args) :
    classify line = .instr m args := by
  simp [classify, h, mnemonic_not_comment, mnemonic_not_label, mnemonic_not_int]

/-- The class of an instruction line says what its tokens are. -/
theorem tokens_of_classify {line : Line} {m : Mnemonic} {args : List Token} (h : classify line = .instr m args) :
    tokens line = m.text :: args := by
  unfold classify at h
  split at h
  · cases h
  · next t as htok =>
    split at h
    · cases h
    · split at h
      · cases h
      · split at h
        · split at h <;> cases h
        · split at h
          · next m' hm =>
            cases h
            rw [htok, mnemonicOf_eq_some.1 hm]
          · cases h

theorem tokens_joinLine (m : Mnemonic) {t : Token} (ht : IsToken t) : tokens (m.text ++ ' ' :: t) = [m.text, t] := by
  rw [tokens_run (mnemonic_isToken m) rfl, tokens_space rfl, tokens_token ht]

/-- A mnemonic alone is an instruction line with no operand token. -/
theorem classify_mnemonic (m : Mnemonic) : classify m.text = .instr m [] :=
  classify_of_tokens (tokens_token (mnemonic_isToken m))

/-- A mnemonic and one token make an instruction line with that operand token. -/
theorem classify_mnemonic_arg (m : Mnemonic) {t : Token} (ht : IsToken t) :
    classify (m.text ++ ' ' :: t) = .instr m [t] :=
  classify_of_tokens (tokens_joinLine m ht)

/-- The decimal text of an integer is a data line of that value (20_memory.md R46). -/
@[simp] theorem classify_dec (v : Int) : classify (dec v) = .data (intOf (dec v)) := by
  have htok := tokens_token (isToken_of_isInt (isInt_dec v))
  have hcom : isCommentToken (dec v) = false := by
    cases h : dec v with
    | nil => rfl
    | cons c cs =>
      have := isInt_chars (isInt_dec v) (c := c) (by simp [h])
      simp only [isCommentToken, beq_eq_false_iff_ne, ne_eq]
      rintro rfl
      rcases this with h1 | h1
      · exact absurd h1 (by decide)
      · exact absurd h1 (by decide)
  have hlab : isLabelToken (dec v) = false := by
    simp only [isLabelToken, Bool.and_eq_false_iff, beq_eq_false_iff_ne, ne_eq]
    left
    intro h
    have hmem : ':' ∈ dec v := List.mem_of_getLast? h
    rcases isInt_chars (isInt_dec v) hmem with h1 | h1
    · exact absurd h1 (by decide)
    · exact absurd h1 (by decide)
  simp [classify, htok, hcom, hlab]

@[simp] theorem dataValue_dec (v : Int) : dataValue (dec v) = some v := by
  simp [dataValue]

/-- The decoder reads the line alone: an instruction line is decoded from its operand tokens. -/
theorem decodeFetched_instr {line : Line} {m : Mnemonic} {args : List Token} (h : classify line = .instr m args) :
    decodeFetched line = match decodeInstr m args with | .ok i => .run i | .error e => .reject e := by
  cases hd : decodeInstr m args <;> simp [decodeFetched, h, hd]

/-- The decoder answers an instruction exactly for an instruction line whose operands decode. -/
theorem decodeFetched_run {line : Line} {i : Instr} :
    decodeFetched line = .run i ↔ ∃ m args, classify line = .instr m args ∧ decodeInstr m args = .ok i := by
  constructor
  · intro h
    cases hc : classify line with
    | instr m args =>
      rw [decodeFetched_instr hc] at h
      cases hd : decodeInstr m args with
      | ok j => rw [hd] at h; cases h; exact ⟨m, args, rfl, hd⟩
      | error e => rw [hd] at h; cases h
    | empty => simp [decodeFetched, hc] at h
    | comment l => simp [decodeFetched, hc] at h
    | label n => simp [decodeFetched, hc] at h
    | data v => simp [decodeFetched, hc] at h
    | dataJunk l => simp [decodeFetched, hc] at h
    | bad l => simp [decodeFetched, hc] at h
  · rintro ⟨m, args, hc, hd⟩
    rw [decodeFetched_instr hc, hd]

/-! ## Operand tokens: when each of the three forms decodes, and how it fails -/

theorem decodeAddr_ok {args : List Token} {mk : Int → Instr} {i : Instr} :
    decodeAddr args mk = .ok i ↔ ∃ t, args = [t] ∧ isInt t = true ∧ i = mk (intOf t) := by
  match args with
  | [] => simp [decodeAddr]
  | [t] =>
    by_cases h : isInt t = true
    · simp only [decodeAddr, h, if_true, Except.ok.injEq, List.cons.injEq, and_true]
      exact ⟨fun e => ⟨t, rfl, h, e.symm⟩, fun ⟨_, e, _, e'⟩ => by rw [e', e]⟩
    · simp [decodeAddr, h]
  | _ :: _ :: _ => simp [decodeAddr]

theorem decodeTarget_ok {args : List Token} {mk : Target → Instr} {i : Instr} :
    decodeTarget args mk = .ok i ↔ ∃ t, args = [t] ∧ i = mk (if isInt t = true then .addr (intOf t) else .label t) := by
  match args with
  | [] => simp [decodeTarget]
  | [t] =>
    simp only [decodeTarget, Except.ok.injEq, List.cons.injEq, and_true]
    exact ⟨fun e => ⟨t, rfl, e.symm⟩, fun ⟨_, e, e'⟩ => by rw [e', e]⟩
  | _ :: _ :: _ => simp [decodeTarget]

theorem decodeSurplus_ok {args : List Token} {mk : Option Int → Instr} {i : Instr} :
    decodeSurplus args mk = .ok i ↔
      (args = [] ∧ i = mk none) ∨ ∃ t, args = [t] ∧ isInt t = true ∧ i = mk (some (intOf t)) := by
  match args with
  | [] =>
    simp only [decodeSurplus, Except.ok.injEq, true_and, List.nil_eq, List.cons_ne_nil, false_and, exists_false, or_false]
    exact eq_comm
  | [t] =>
    by_cases h : isInt t = true
    · simp only [decodeSurplus, h, if_true, Except.ok.injEq, List.cons_ne_nil, false_and, false_or, List.cons.injEq, and_true]
      exact ⟨fun e => ⟨t, rfl, h, e.symm⟩, fun ⟨_, e, _, e'⟩ => by rw [e', e]⟩
    · simp [decodeSurplus, h]
  | _ :: _ :: _ => simp [decodeSurplus]

/-- Operand tokens fail to decode in one way. -/
theorem decodeInstr_error {m : Mnemonic} {args : List Token} {e : DecodeError} (h : decodeInstr m args = .error e) :
    e = .invalidOperand := by
  match args with
  | [] => cases m <;> simp_all [decodeInstr, decodeAddr, decodeTarget, decodeSurplus]
  | [t] =>
    by_cases ht : isInt t = true <;> cases m <;> simp_all [decodeInstr, decodeAddr, decodeTarget, decodeSurplus]
  | _ :: _ :: _ => cases m <;> simp_all [decodeInstr, decodeAddr, decodeTarget, decodeSurplus]

/-- A decoded instruction has the mnemonic it was decoded from. -/
theorem decodeInstr_mnemonic {m : Mnemonic} {args : List Token} {i : Instr} (h : decodeInstr m args = .ok i) :
    i.mnemonic = m := by
  cases m <;> simp only [decodeInstr, decodeAddr_ok, decodeTarget_ok, decodeSurplus_ok] at h
  all_goals first
    | (obtain ⟨t, -, -, rfl⟩ := h; rfl; done)
    | (obtain ⟨t, -, rfl⟩ := h; rfl; done)
    | (rcases h with ⟨-, rfl⟩ | ⟨t, -, -, rfl⟩ <;> rfl)

theorem wfName_isToken {t : Token} (h : wfName t = true) : IsToken t := by
  simp only [wfName, Bool.and_eq_true, Bool.not_eq_true', List.isEmpty_eq_false_iff, List.all_eq_true] at h
  exact ⟨h.1.1.1, h.1.1.2⟩

theorem wfName_not_int {t : Token} (h : wfName t = true) : isInt t = false := by
  simp only [wfName, Bool.and_eq_true, Bool.not_eq_true'] at h
  exact h.2

theorem dec_isToken (v : Int) : IsToken (dec v) := isToken_of_isInt (isInt_dec v)

theorem targetToken_isToken {t : Target} (h : t.wf = true) : IsToken (targetToken t) := by
  cases t with
  | addr a => exact dec_isToken a
  | label n => exact wfName_isToken h

/-- The symbol table lookup finds a pair of the table. -/
theorem lookupLabel_mem {sym : SymbolTable} {n : Token} {a : Nat} (h : lookupLabel sym n = some a) : (n, a) ∈ sym := by
  induction sym with
  | nil => simp [lookupLabel] at h
  | cons e rest ih =>
    obtain ⟨k, b⟩ := e
    by_cases hk : k = n
    · subst hk
      simp only [lookupLabel, if_true, Option.some.injEq] at h
      subst h
      exact List.mem_cons_self ..
    · simp only [lookupLabel, if_neg hk] at h
      exact List.mem_cons_of_mem _ (ih h)

end Sys2Proof
end

