-- ==== Sys2Proof/Laws/Logic.lean ====
section
/-! SUPPORT. The logic operations are Mathlib's operations on ℤ, which have the bits of the infinite two's complement
(00_scope.md R7); the loop of MUL in closed form (42_arithmetic.md R122). -/

namespace Sys2Proof.Machine

theorem natAndNot_eq_ldiff (m n : Nat) : natAndNot m n = Nat.ldiff m n := by
  refine Nat.eq_of_testBit_eq fun i => ?_
  rw [natAndNot, Nat.testBit_xor, Nat.testBit_and, Nat.testBit_ldiff]
  cases m.testBit i <;> cases n.testBit i <;> rfl

theorem bitAnd_eq_land (a b : Int) : bitAnd a b = Int.land a b := by
  cases a <;> cases b <;> simp [bitAnd, Int.land, natAndNot_eq_ldiff]

theorem bitOr_eq_lor (a b : Int) : bitOr a b = Int.lor a b := by
  cases a <;> cases b <;> simp [bitOr, Int.lor, natAndNot_eq_ldiff]

theorem bitXor_eq_xor (a b : Int) : bitXor a b = Int.xor a b := by
  cases a <;> cases b <;> simp [bitXor, Int.xor]

theorem bitNot_eq_lnot (a : Int) : bitNot a = Int.lnot a := by
  cases a <;> rfl

/-- `NOT a = -a - 1` (00_scope.md R7). -/
theorem bitNot_eq (a : Int) : bitNot a = -a - 1 := by
  cases a with
  | ofNat m => simp only [bitNot, Int.negSucc_eq, Int.ofNat_eq_natCast]; omega
  | negSucc m => simp only [bitNot, Int.negSucc_eq, Int.ofNat_eq_natCast]; omega

/-! ## The loop of MUL -/

/-- From a counter above zero the loop never ends, whatever the number of passes (42_arithmetic.md R122). -/
theorem mulLoop_of_pos (dr : Int) (k : Nat) (acc ctr : Int) (h : 0 < ctr) : mulLoop dr k acc ctr = none := by
  induction k generalizing acc ctr with
  | zero => simp [mulLoop, show ctr ≠ 0 by omega]
  | succ k ih => simp [mulLoop, show ctr ≠ 0 by omega, ih (acc + dr) (ctr + 1) (by omega)]

/-- From a counter `-k` the loop makes `k` passes. -/
theorem mulLoop_of_neg (dr : Int) (k : Nat) (acc : Int) : mulLoop dr k acc (-(k : Int)) = some (acc + k * dr) := by
  induction k generalizing acc with
  | zero => simp [mulLoop]
  | succ k ih =>
    have hne : -((k + 1 : Nat) : Int) ≠ 0 := by omega
    have hstep : -((k + 1 : Nat) : Int) + 1 = -(k : Int) := by omega
    rw [mulLoop, if_neg hne, hstep, ih]
    congr 1
    push_cast
    ring

/-- The loop of `MUL` in closed form: `m - 1` additions where `m >= 1` (42_arithmetic.md R122). -/
theorem mulRun_of_pos (dr acc m : Int) (h : 1 ≤ m) : mulRun dr acc (1 - m) = some (acc + (m - 1) * dr) := by
  obtain ⟨k, hk⟩ := Int.eq_ofNat_of_zero_le (show 0 ≤ m - 1 by omega)
  have h1 : 1 - m = -(k : Int) := by omega
  have h2 : (-(-(k : Int))).toNat = k := by omega
  rw [mulRun, h1, h2, mulLoop_of_neg, hk]

/-- The loop of `MUL` never ends where `m <= 0` (42_arithmetic.md R122). -/
theorem mulRun_of_nonpos (dr acc m : Int) (h : m ≤ 0) : mulRun dr acc (1 - m) = none :=
  mulLoop_of_pos dr _ acc (1 - m) (by omega)

end Sys2Proof.Machine
end

