-- ==== Sys2Proof/Laws/Memory.lean ====
section
/-! SUPPORT. Laws of memory: read after write, and every write keeps the canonical form. -/

namespace Sys2Proof.Machine

/-- A list whose addresses start above `a` has no line at `a`. -/
theorem Memory.read_of_rising {m : Memory} {lo a : Nat} (h : m.rising lo = true) (ha : a < lo) : m.read a = [] := by
  induction m generalizing lo with
  | nil => rfl
  | cons c rest ih =>
    obtain ⟨b, l⟩ := c
    simp only [Memory.rising, Bool.and_eq_true, decide_eq_true_eq] at h
    simp only [Memory.read, if_neg (show b ≠ a by omega)]
    exact ih h.2 (by omega)

theorem Memory.rising_mono {m : Memory} {lo lo' : Nat} (h : m.rising lo = true) (hl : lo' ≤ lo) :
    m.rising lo' = true := by
  cases m with
  | nil => rfl
  | cons c rest =>
    simp only [Memory.rising, Bool.and_eq_true, decide_eq_true_eq] at h ⊢
    exact ⟨by omega, h.2⟩

/-- Reading after a write: the written cell holds the line, every other cell what it held. -/
theorem Memory.read_write {m : Memory} {lo : Nat} (h : m.rising lo = true) (a : Nat) (l : Line) (b : Nat) :
    (m.write a l).read b = if b = a then l else m.read b := by
  induction m generalizing lo with
  | nil =>
    by_cases hl : l = [] <;> by_cases hb : b = a <;> simp [Memory.write, Memory.read, hl, hb, Ne.symm]
  | cons c rest ih =>
    obtain ⟨d, k⟩ := c
    simp only [Memory.rising, Bool.and_eq_true, decide_eq_true_eq] at h
    by_cases hlt : d < a
    · simp only [Memory.write, if_pos hlt, Memory.read, ih h.2]
      by_cases hd : d = b
      · subst hd; simp [show d ≠ a by omega]
      · simp [hd]
    · have hrest : Memory.read rest a = [] := Memory.read_of_rising h.2 (by omega)
      simp only [Memory.write, if_neg hlt]
      by_cases hda : d = a
      · subst hda
        by_cases hl : l = []
        · by_cases hb : b = d
          · subst hb; simp [hl, hrest]
          · simp [hl, hb, Memory.read, Ne.symm hb]
        · by_cases hb : b = d
          · subst hb; simp [hl, Memory.read]
          · simp [hl, hb, Memory.read, Ne.symm hb]
      · have hr0 : Memory.read ((d, k) :: rest) a = [] := by
          simp [Memory.read, hda, hrest]
        by_cases hl : l = []
        · by_cases hb : b = a
          · subst hb; simpa [hda, hl] using hr0
          · simp [hda, hl, hb]
        · by_cases hb : b = a
          · subst hb; simp [hda, hl, Memory.read]
          · simp [hda, hl, hb, Memory.read, Ne.symm hb]

/-- A write leaves every other cell alone, whatever the form of the list. -/
theorem Memory.read_write_ne (m : Memory) {a b : Nat} (l : Line) (h : b ≠ a) : (m.write a l).read b = m.read b := by
  induction m with
  | nil => by_cases hl : l = [] <;> simp [Memory.write, Memory.read, hl, h.symm]
  | cons c rest ih =>
    obtain ⟨d, k⟩ := c
    by_cases hlt : d < a
    · simp [Memory.write, hlt, Memory.read, ih]
    · by_cases hda : d = a
      · subst hda
        by_cases hl : l = [] <;> simp [Memory.write, hl, Memory.read, h.symm]
      · by_cases hl : l = [] <;> simp [Memory.write, hl, hlt, hda, Memory.read, h.symm]

/-- A line that is not empty reads back where it was written, whatever the form of the list. -/
theorem Memory.read_write_same (m : Memory) (a : Nat) {l : Line} (h : l ≠ []) : (m.write a l).read a = l := by
  induction m with
  | nil => simp [Memory.write, Memory.read, h]
  | cons c rest ih =>
    obtain ⟨d, k⟩ := c
    by_cases hlt : d < a
    · simp [Memory.write, hlt, Memory.read, ih, show d ≠ a by omega]
    · by_cases hda : d = a <;> simp [Memory.write, h, hlt, hda, Memory.read]

/-- Every listed address lies below `MEMSIZE` and no listed line is empty. -/
abbrev Memory.entriesOk (m : Memory) : Prop := ∀ c ∈ m, c.1 < Config.memSize ∧ c.2 ≠ []

theorem Memory.wf_iff (m : Memory) : m.wf = true ↔ m.rising 0 = true ∧ m.entriesOk := by
  simp [Memory.wf, Memory.entriesOk]

theorem Memory.write_rising {m : Memory} {lo a : Nat} (l : Line) (h : m.rising lo = true) (ha : lo ≤ a) :
    (m.write a l).rising lo = true := by
  induction m generalizing lo with
  | nil => by_cases hl : l = [] <;> simp [Memory.write, Memory.rising, hl, ha]
  | cons c rest ih =>
    obtain ⟨d, k⟩ := c
    simp only [Memory.rising, Bool.and_eq_true, decide_eq_true_eq] at h
    by_cases hlt : d < a
    · simp only [Memory.write, if_pos hlt, Memory.rising, Bool.and_eq_true, decide_eq_true_eq]
      exact ⟨h.1, ih h.2 (by omega)⟩
    · simp only [Memory.write, if_neg hlt]
      by_cases hda : d = a
      · subst hda
        by_cases hl : l = []
        · simpa [hl] using Memory.rising_mono h.2 (by omega)
        · simp [hl, Memory.rising, h.1, h.2]
      · by_cases hl : l = []
        · simp [hda, hl, Memory.rising, h.1, h.2]
        · simp [hda, hl, Memory.rising, ha, h.2, show a + 1 ≤ d by omega]

theorem Memory.write_entries {m : Memory} {a : Nat} {l : Line} (h : m.entriesOk) (ha : a < Config.memSize) :
    (m.write a l).entriesOk := by
  induction m with
  | nil => by_cases hl : l = [] <;> simp [Memory.write, Memory.entriesOk, hl, ha]
  | cons c rest ih =>
    obtain ⟨d, k⟩ := c
    simp only [Memory.entriesOk, List.forall_mem_cons] at h ih ⊢
    by_cases hlt : d < a
    · simp only [Memory.write, if_pos hlt, List.forall_mem_cons]
      exact ⟨h.1, ih h.2⟩
    · simp only [Memory.write, if_neg hlt]
      by_cases hda : d = a
      · subst hda
        by_cases hl : l = []
        · simpa [hl] using h.2
        · simpa [hl, h.1.1] using h.2
      · by_cases hl : l = []
        · simpa [hda, hl] using h
        · simpa [hda, hl, ha] using h

/-- A write to a cell of the machine keeps the canonical form. -/
theorem Memory.write_wf {m : Memory} {a : Nat} (l : Line) (h : m.wf = true) (ha : a < Config.memSize) :
    (m.write a l).wf = true := by
  rw [Memory.wf_iff] at h ⊢
  exact ⟨Memory.write_rising l h.1 (Nat.zero_le a), Memory.write_entries h.2 ha⟩

/-- Read after write in a canonical memory. -/
theorem Memory.read_write_wf {m : Memory} (h : m.wf = true) (a : Nat) (l : Line) (b : Nat) :
    (m.write a l).read b = if b = a then l else m.read b :=
  Memory.read_write ((Memory.wf_iff m).1 h).1 a l b

/-- Two memories in canonical form with the same lines are the same data. -/
theorem Memory.ext_of_read {m n : Memory} {lo : Nat} (hm : m.rising lo = true) (hn : n.rising lo = true)
    (em : ∀ c ∈ m, c.2 ≠ []) (en : ∀ c ∈ n, c.2 ≠ []) (h : ∀ a, m.read a = n.read a) : m = n := by
  induction m generalizing n lo with
  | nil =>
    cases n with
    | nil => rfl
    | cons c rest =>
      have := h c.1
      simp only [Memory.read, if_true] at this
      exact absurd this.symm (en c (List.mem_cons_self ..))
  | cons c rest ih =>
    obtain ⟨d, k⟩ := c
    have hk : k ≠ [] := em (d, k) (List.mem_cons_self ..)
    simp only [Memory.rising, Bool.and_eq_true, decide_eq_true_eq] at hm
    cases n with
    | nil =>
      have := h d
      simp only [Memory.read, if_true] at this
      exact absurd this hk
    | cons e rest' =>
      obtain ⟨f, j⟩ := e
      have hj : j ≠ [] := en (f, j) (List.mem_cons_self ..)
      simp only [Memory.rising, Bool.and_eq_true, decide_eq_true_eq] at hn
      have hdf : d = f := by
        rcases Nat.lt_trichotomy d f with hlt | heq | hgt
        · have hd := h d
          simp only [Memory.read, if_true, if_neg (show f ≠ d by omega)] at hd
          rw [Memory.read_of_rising hn.2 (by omega)] at hd
          exact absurd hd hk
        · exact heq
        · have hf := h f
          simp only [Memory.read, if_true, if_neg (show d ≠ f by omega)] at hf
          rw [Memory.read_of_rising hm.2 (by omega)] at hf
          exact absurd hf.symm hj
      subst hdf
      have hkj : k = j := by simpa [Memory.read] using h d
      subst hkj
      have : rest = rest' := by
        refine ih hm.2 hn.2 (fun c hc => em c (List.mem_cons_of_mem _ hc)) (fun c hc => en c (List.mem_cons_of_mem _ hc)) ?_
        intro a
        by_cases ha : d = a
        · subst ha
          rw [Memory.read_of_rising hm.2 (by omega), Memory.read_of_rising hn.2 (by omega)]
        · have := h a
          simpa [Memory.read, ha] using this
      rw [this]

end Sys2Proof.Machine
end

