-- ==== Sys2Proof/Laws/State.lean ====
section
/-! SUPPORT. One lemma per field per update of the state, so that no later proof unfolds a record update. -/

namespace Sys2Proof.Machine

variable (s : State)

/-! ## `State.setAcc` -/

@[simp] theorem State.setAcc_acc (v : Int) : (s.setAcc v).acc = v := rfl
@[simp] theorem State.setAcc_pc (v : Int) : (s.setAcc v).pc = s.pc := rfl
@[simp] theorem State.setAcc_ir (v : Int) : (s.setAcc v).ir = s.ir := rfl
@[simp] theorem State.setAcc_ar (v : Int) : (s.setAcc v).ar = s.ar := rfl
@[simp] theorem State.setAcc_dr (v : Int) : (s.setAcc v).dr = s.dr := rfl
@[simp] theorem State.setAcc_ctr (v : Int) : (s.setAcc v).ctr = s.ctr := rfl
@[simp] theorem State.setAcc_inpr (v : Int) : (s.setAcc v).inpr = s.inpr := rfl
@[simp] theorem State.setAcc_outr (v : Int) : (s.setAcc v).outr = s.outr := rfl
@[simp] theorem State.setAcc_engine (v : Int) : (s.setAcc v).engine = s.engine := rfl
@[simp] theorem State.setAcc_fault (v : Int) : (s.setAcc v).fault = s.fault := rfl
@[simp] theorem State.setAcc_mem (v : Int) : (s.setAcc v).mem = s.mem := rfl
@[simp] theorem State.setAcc_sym (v : Int) : (s.setAcc v).sym = s.sym := rfl
@[simp] theorem State.setAcc_outTrace (v : Int) : (s.setAcc v).outTrace = s.outTrace := rfl
@[simp] theorem State.setAcc_hook (v : Int) : (s.setAcc v).hook = s.hook := rfl
@[simp] theorem State.setAcc_hookCalls (v : Int) : (s.setAcc v).hookCalls = s.hookCalls := rfl

/-! ## `State.setPc` -/

@[simp] theorem State.setPc_acc (v : Int) : (s.setPc v).acc = s.acc := rfl
@[simp] theorem State.setPc_pc (v : Int) : (s.setPc v).pc = v := rfl
@[simp] theorem State.setPc_ir (v : Int) : (s.setPc v).ir = s.ir := rfl
@[simp] theorem State.setPc_ar (v : Int) : (s.setPc v).ar = s.ar := rfl
@[simp] theorem State.setPc_dr (v : Int) : (s.setPc v).dr = s.dr := rfl
@[simp] theorem State.setPc_ctr (v : Int) : (s.setPc v).ctr = s.ctr := rfl
@[simp] theorem State.setPc_inpr (v : Int) : (s.setPc v).inpr = s.inpr := rfl
@[simp] theorem State.setPc_outr (v : Int) : (s.setPc v).outr = s.outr := rfl
@[simp] theorem State.setPc_engine (v : Int) : (s.setPc v).engine = s.engine := rfl
@[simp] theorem State.setPc_fault (v : Int) : (s.setPc v).fault = s.fault := rfl
@[simp] theorem State.setPc_mem (v : Int) : (s.setPc v).mem = s.mem := rfl
@[simp] theorem State.setPc_sym (v : Int) : (s.setPc v).sym = s.sym := rfl
@[simp] theorem State.setPc_outTrace (v : Int) : (s.setPc v).outTrace = s.outTrace := rfl
@[simp] theorem State.setPc_hook (v : Int) : (s.setPc v).hook = s.hook := rfl
@[simp] theorem State.setPc_hookCalls (v : Int) : (s.setPc v).hookCalls = s.hookCalls := rfl

/-! ## `State.setIr` -/

@[simp] theorem State.setIr_acc (l : Line) : (s.setIr l).acc = s.acc := rfl
@[simp] theorem State.setIr_pc (l : Line) : (s.setIr l).pc = s.pc := rfl
@[simp] theorem State.setIr_ir (l : Line) : (s.setIr l).ir = l := rfl
@[simp] theorem State.setIr_ar (l : Line) : (s.setIr l).ar = s.ar := rfl
@[simp] theorem State.setIr_dr (l : Line) : (s.setIr l).dr = s.dr := rfl
@[simp] theorem State.setIr_ctr (l : Line) : (s.setIr l).ctr = s.ctr := rfl
@[simp] theorem State.setIr_inpr (l : Line) : (s.setIr l).inpr = s.inpr := rfl
@[simp] theorem State.setIr_outr (l : Line) : (s.setIr l).outr = s.outr := rfl
@[simp] theorem State.setIr_engine (l : Line) : (s.setIr l).engine = s.engine := rfl
@[simp] theorem State.setIr_fault (l : Line) : (s.setIr l).fault = s.fault := rfl
@[simp] theorem State.setIr_mem (l : Line) : (s.setIr l).mem = s.mem := rfl
@[simp] theorem State.setIr_sym (l : Line) : (s.setIr l).sym = s.sym := rfl
@[simp] theorem State.setIr_outTrace (l : Line) : (s.setIr l).outTrace = s.outTrace := rfl
@[simp] theorem State.setIr_hook (l : Line) : (s.setIr l).hook = s.hook := rfl
@[simp] theorem State.setIr_hookCalls (l : Line) : (s.setIr l).hookCalls = s.hookCalls := rfl

/-! ## `State.setAr` -/

@[simp] theorem State.setAr_acc (v : Int) : (s.setAr v).acc = s.acc := rfl
@[simp] theorem State.setAr_pc (v : Int) : (s.setAr v).pc = s.pc := rfl
@[simp] theorem State.setAr_ir (v : Int) : (s.setAr v).ir = s.ir := rfl
@[simp] theorem State.setAr_ar (v : Int) : (s.setAr v).ar = v := rfl
@[simp] theorem State.setAr_dr (v : Int) : (s.setAr v).dr = s.dr := rfl
@[simp] theorem State.setAr_ctr (v : Int) : (s.setAr v).ctr = s.ctr := rfl
@[simp] theorem State.setAr_inpr (v : Int) : (s.setAr v).inpr = s.inpr := rfl
@[simp] theorem State.setAr_outr (v : Int) : (s.setAr v).outr = s.outr := rfl
@[simp] theorem State.setAr_engine (v : Int) : (s.setAr v).engine = s.engine := rfl
@[simp] theorem State.setAr_fault (v : Int) : (s.setAr v).fault = s.fault := rfl
@[simp] theorem State.setAr_mem (v : Int) : (s.setAr v).mem = s.mem := rfl
@[simp] theorem State.setAr_sym (v : Int) : (s.setAr v).sym = s.sym := rfl
@[simp] theorem State.setAr_outTrace (v : Int) : (s.setAr v).outTrace = s.outTrace := rfl
@[simp] theorem State.setAr_hook (v : Int) : (s.setAr v).hook = s.hook := rfl
@[simp] theorem State.setAr_hookCalls (v : Int) : (s.setAr v).hookCalls = s.hookCalls := rfl

/-! ## `State.setDr` -/

@[simp] theorem State.setDr_acc (v : Int) : (s.setDr v).acc = s.acc := rfl
@[simp] theorem State.setDr_pc (v : Int) : (s.setDr v).pc = s.pc := rfl
@[simp] theorem State.setDr_ir (v : Int) : (s.setDr v).ir = s.ir := rfl
@[simp] theorem State.setDr_ar (v : Int) : (s.setDr v).ar = s.ar := rfl
@[simp] theorem State.setDr_dr (v : Int) : (s.setDr v).dr = v := rfl
@[simp] theorem State.setDr_ctr (v : Int) : (s.setDr v).ctr = s.ctr := rfl
@[simp] theorem State.setDr_inpr (v : Int) : (s.setDr v).inpr = s.inpr := rfl
@[simp] theorem State.setDr_outr (v : Int) : (s.setDr v).outr = s.outr := rfl
@[simp] theorem State.setDr_engine (v : Int) : (s.setDr v).engine = s.engine := rfl
@[simp] theorem State.setDr_fault (v : Int) : (s.setDr v).fault = s.fault := rfl
@[simp] theorem State.setDr_mem (v : Int) : (s.setDr v).mem = s.mem := rfl
@[simp] theorem State.setDr_sym (v : Int) : (s.setDr v).sym = s.sym := rfl
@[simp] theorem State.setDr_outTrace (v : Int) : (s.setDr v).outTrace = s.outTrace := rfl
@[simp] theorem State.setDr_hook (v : Int) : (s.setDr v).hook = s.hook := rfl
@[simp] theorem State.setDr_hookCalls (v : Int) : (s.setDr v).hookCalls = s.hookCalls := rfl

/-! ## `State.setCtr` -/

@[simp] theorem State.setCtr_acc (v : Int) : (s.setCtr v).acc = s.acc := rfl
@[simp] theorem State.setCtr_pc (v : Int) : (s.setCtr v).pc = s.pc := rfl
@[simp] theorem State.setCtr_ir (v : Int) : (s.setCtr v).ir = s.ir := rfl
@[simp] theorem State.setCtr_ar (v : Int) : (s.setCtr v).ar = s.ar := rfl
@[simp] theorem State.setCtr_dr (v : Int) : (s.setCtr v).dr = s.dr := rfl
@[simp] theorem State.setCtr_ctr (v : Int) : (s.setCtr v).ctr = v := rfl
@[simp] theorem State.setCtr_inpr (v : Int) : (s.setCtr v).inpr = s.inpr := rfl
@[simp] theorem State.setCtr_outr (v : Int) : (s.setCtr v).outr = s.outr := rfl
@[simp] theorem State.setCtr_engine (v : Int) : (s.setCtr v).engine = s.engine := rfl
@[simp] theorem State.setCtr_fault (v : Int) : (s.setCtr v).fault = s.fault := rfl
@[simp] theorem State.setCtr_mem (v : Int) : (s.setCtr v).mem = s.mem := rfl
@[simp] theorem State.setCtr_sym (v : Int) : (s.setCtr v).sym = s.sym := rfl
@[simp] theorem State.setCtr_outTrace (v : Int) : (s.setCtr v).outTrace = s.outTrace := rfl
@[simp] theorem State.setCtr_hook (v : Int) : (s.setCtr v).hook = s.hook := rfl
@[simp] theorem State.setCtr_hookCalls (v : Int) : (s.setCtr v).hookCalls = s.hookCalls := rfl

/-! ## `State.setInpr` -/

@[simp] theorem State.setInpr_acc (v : Int) : (s.setInpr v).acc = s.acc := rfl
@[simp] theorem State.setInpr_pc (v : Int) : (s.setInpr v).pc = s.pc := rfl
@[simp] theorem State.setInpr_ir (v : Int) : (s.setInpr v).ir = s.ir := rfl
@[simp] theorem State.setInpr_ar (v : Int) : (s.setInpr v).ar = s.ar := rfl
@[simp] theorem State.setInpr_dr (v : Int) : (s.setInpr v).dr = s.dr := rfl
@[simp] theorem State.setInpr_ctr (v : Int) : (s.setInpr v).ctr = s.ctr := rfl
@[simp] theorem State.setInpr_inpr (v : Int) : (s.setInpr v).inpr = some v := rfl
@[simp] theorem State.setInpr_outr (v : Int) : (s.setInpr v).outr = s.outr := rfl
@[simp] theorem State.setInpr_engine (v : Int) : (s.setInpr v).engine = s.engine := rfl
@[simp] theorem State.setInpr_fault (v : Int) : (s.setInpr v).fault = s.fault := rfl
@[simp] theorem State.setInpr_mem (v : Int) : (s.setInpr v).mem = s.mem := rfl
@[simp] theorem State.setInpr_sym (v : Int) : (s.setInpr v).sym = s.sym := rfl
@[simp] theorem State.setInpr_outTrace (v : Int) : (s.setInpr v).outTrace = s.outTrace := rfl
@[simp] theorem State.setInpr_hook (v : Int) : (s.setInpr v).hook = s.hook := rfl
@[simp] theorem State.setInpr_hookCalls (v : Int) : (s.setInpr v).hookCalls = s.hookCalls := rfl

/-! ## `State.setEngine` -/

@[simp] theorem State.setEngine_acc (e : EngineState) : (s.setEngine e).acc = s.acc := rfl
@[simp] theorem State.setEngine_pc (e : EngineState) : (s.setEngine e).pc = s.pc := rfl
@[simp] theorem State.setEngine_ir (e : EngineState) : (s.setEngine e).ir = s.ir := rfl
@[simp] theorem State.setEngine_ar (e : EngineState) : (s.setEngine e).ar = s.ar := rfl
@[simp] theorem State.setEngine_dr (e : EngineState) : (s.setEngine e).dr = s.dr := rfl
@[simp] theorem State.setEngine_ctr (e : EngineState) : (s.setEngine e).ctr = s.ctr := rfl
@[simp] theorem State.setEngine_inpr (e : EngineState) : (s.setEngine e).inpr = s.inpr := rfl
@[simp] theorem State.setEngine_outr (e : EngineState) : (s.setEngine e).outr = s.outr := rfl
@[simp] theorem State.setEngine_engine (e : EngineState) : (s.setEngine e).engine = e := rfl
@[simp] theorem State.setEngine_fault (e : EngineState) : (s.setEngine e).fault = s.fault := rfl
@[simp] theorem State.setEngine_mem (e : EngineState) : (s.setEngine e).mem = s.mem := rfl
@[simp] theorem State.setEngine_sym (e : EngineState) : (s.setEngine e).sym = s.sym := rfl
@[simp] theorem State.setEngine_outTrace (e : EngineState) : (s.setEngine e).outTrace = s.outTrace := rfl
@[simp] theorem State.setEngine_hook (e : EngineState) : (s.setEngine e).hook = s.hook := rfl
@[simp] theorem State.setEngine_hookCalls (e : EngineState) : (s.setEngine e).hookCalls = s.hookCalls := rfl

/-! ## `State.writeCell` -/

@[simp] theorem State.writeCell_acc (a : Nat) (l : Line) : (s.writeCell a l).acc = s.acc := rfl
@[simp] theorem State.writeCell_pc (a : Nat) (l : Line) : (s.writeCell a l).pc = s.pc := rfl
@[simp] theorem State.writeCell_ir (a : Nat) (l : Line) : (s.writeCell a l).ir = s.ir := rfl
@[simp] theorem State.writeCell_ar (a : Nat) (l : Line) : (s.writeCell a l).ar = s.ar := rfl
@[simp] theorem State.writeCell_dr (a : Nat) (l : Line) : (s.writeCell a l).dr = s.dr := rfl
@[simp] theorem State.writeCell_ctr (a : Nat) (l : Line) : (s.writeCell a l).ctr = s.ctr := rfl
@[simp] theorem State.writeCell_inpr (a : Nat) (l : Line) : (s.writeCell a l).inpr = s.inpr := rfl
@[simp] theorem State.writeCell_outr (a : Nat) (l : Line) : (s.writeCell a l).outr = s.outr := rfl
@[simp] theorem State.writeCell_engine (a : Nat) (l : Line) : (s.writeCell a l).engine = s.engine := rfl
@[simp] theorem State.writeCell_fault (a : Nat) (l : Line) : (s.writeCell a l).fault = s.fault := rfl
@[simp] theorem State.writeCell_mem (a : Nat) (l : Line) : (s.writeCell a l).mem = s.mem.write a l := rfl
@[simp] theorem State.writeCell_sym (a : Nat) (l : Line) : (s.writeCell a l).sym = s.sym := rfl
@[simp] theorem State.writeCell_outTrace (a : Nat) (l : Line) : (s.writeCell a l).outTrace = s.outTrace := rfl
@[simp] theorem State.writeCell_hook (a : Nat) (l : Line) : (s.writeCell a l).hook = s.hook := rfl
@[simp] theorem State.writeCell_hookCalls (a : Nat) (l : Line) : (s.writeCell a l).hookCalls = s.hookCalls := rfl

/-! ## `State.advance` -/

@[simp] theorem State.advance_acc : (s.advance).acc = s.acc := rfl
@[simp] theorem State.advance_pc : (s.advance).pc = s.pc + 1 := rfl
@[simp] theorem State.advance_ir : (s.advance).ir = s.ir := rfl
@[simp] theorem State.advance_ar : (s.advance).ar = s.ar := rfl
@[simp] theorem State.advance_dr : (s.advance).dr = s.dr := rfl
@[simp] theorem State.advance_ctr : (s.advance).ctr = s.ctr := rfl
@[simp] theorem State.advance_inpr : (s.advance).inpr = s.inpr := rfl
@[simp] theorem State.advance_outr : (s.advance).outr = s.outr := rfl
@[simp] theorem State.advance_engine : (s.advance).engine = s.engine := rfl
@[simp] theorem State.advance_fault : (s.advance).fault = s.fault := rfl
@[simp] theorem State.advance_mem : (s.advance).mem = s.mem := rfl
@[simp] theorem State.advance_sym : (s.advance).sym = s.sym := rfl
@[simp] theorem State.advance_outTrace : (s.advance).outTrace = s.outTrace := rfl
@[simp] theorem State.advance_hook : (s.advance).hook = s.hook := rfl
@[simp] theorem State.advance_hookCalls : (s.advance).hookCalls = s.hookCalls := rfl

/-! ## `State.emit` -/

@[simp] theorem State.emit_acc : (s.emit).acc = s.acc := rfl
@[simp] theorem State.emit_pc : (s.emit).pc = s.pc := rfl
@[simp] theorem State.emit_ir : (s.emit).ir = s.ir := rfl
@[simp] theorem State.emit_ar : (s.emit).ar = s.ar := rfl
@[simp] theorem State.emit_dr : (s.emit).dr = s.dr := rfl
@[simp] theorem State.emit_ctr : (s.emit).ctr = s.ctr := rfl
@[simp] theorem State.emit_inpr : (s.emit).inpr = s.inpr := rfl
@[simp] theorem State.emit_outr : (s.emit).outr = some s.acc := rfl
@[simp] theorem State.emit_engine : (s.emit).engine = s.engine := rfl
@[simp] theorem State.emit_fault : (s.emit).fault = s.fault := rfl
@[simp] theorem State.emit_mem : (s.emit).mem = s.mem := rfl
@[simp] theorem State.emit_sym : (s.emit).sym = s.sym := rfl
@[simp] theorem State.emit_outTrace : (s.emit).outTrace = s.outTrace ++ [s.acc] := rfl
@[simp] theorem State.emit_hook : (s.emit).hook = s.hook := rfl
@[simp] theorem State.emit_hookCalls : (s.emit).hookCalls = s.hookCalls := rfl

/-! ## `State.raise` -/

@[simp] theorem State.raise_acc (c : Cause) (a : Int) (l : Line) : (s.raise c a l).acc = s.acc := rfl
@[simp] theorem State.raise_pc (c : Cause) (a : Int) (l : Line) : (s.raise c a l).pc = s.pc := rfl
@[simp] theorem State.raise_ir (c : Cause) (a : Int) (l : Line) : (s.raise c a l).ir = s.ir := rfl
@[simp] theorem State.raise_ar (c : Cause) (a : Int) (l : Line) : (s.raise c a l).ar = s.ar := rfl
@[simp] theorem State.raise_dr (c : Cause) (a : Int) (l : Line) : (s.raise c a l).dr = s.dr := rfl
@[simp] theorem State.raise_ctr (c : Cause) (a : Int) (l : Line) : (s.raise c a l).ctr = s.ctr := rfl
@[simp] theorem State.raise_inpr (c : Cause) (a : Int) (l : Line) : (s.raise c a l).inpr = s.inpr := rfl
@[simp] theorem State.raise_outr (c : Cause) (a : Int) (l : Line) : (s.raise c a l).outr = s.outr := rfl
@[simp] theorem State.raise_engine (c : Cause) (a : Int) (l : Line) : (s.raise c a l).engine = .faulted := rfl
@[simp] theorem State.raise_fault (c : Cause) (a : Int) (l : Line) : (s.raise c a l).fault = some ⟨c, a, l⟩ := rfl
@[simp] theorem State.raise_mem (c : Cause) (a : Int) (l : Line) : (s.raise c a l).mem = s.mem := rfl
@[simp] theorem State.raise_sym (c : Cause) (a : Int) (l : Line) : (s.raise c a l).sym = s.sym := rfl
@[simp] theorem State.raise_outTrace (c : Cause) (a : Int) (l : Line) : (s.raise c a l).outTrace = s.outTrace := rfl
@[simp] theorem State.raise_hook (c : Cause) (a : Int) (l : Line) : (s.raise c a l).hook = s.hook := rfl
@[simp] theorem State.raise_hookCalls (c : Cause) (a : Int) (l : Line) : (s.raise c a l).hookCalls = s.hookCalls := rfl

/-! ## `State.raiseHere` -/

@[simp] theorem State.raiseHere_acc (c : Cause) (a : Int) : (s.raiseHere c a).acc = s.acc := rfl
@[simp] theorem State.raiseHere_pc (c : Cause) (a : Int) : (s.raiseHere c a).pc = s.pc := rfl
@[simp] theorem State.raiseHere_ir (c : Cause) (a : Int) : (s.raiseHere c a).ir = s.ir := rfl
@[simp] theorem State.raiseHere_ar (c : Cause) (a : Int) : (s.raiseHere c a).ar = s.ar := rfl
@[simp] theorem State.raiseHere_dr (c : Cause) (a : Int) : (s.raiseHere c a).dr = s.dr := rfl
@[simp] theorem State.raiseHere_ctr (c : Cause) (a : Int) : (s.raiseHere c a).ctr = s.ctr := rfl
@[simp] theorem State.raiseHere_inpr (c : Cause) (a : Int) : (s.raiseHere c a).inpr = s.inpr := rfl
@[simp] theorem State.raiseHere_outr (c : Cause) (a : Int) : (s.raiseHere c a).outr = s.outr := rfl
@[simp] theorem State.raiseHere_engine (c : Cause) (a : Int) : (s.raiseHere c a).engine = .faulted := rfl
@[simp] theorem State.raiseHere_fault (c : Cause) (a : Int) : (s.raiseHere c a).fault = some ⟨c, a, s.currentLine⟩ := rfl
@[simp] theorem State.raiseHere_mem (c : Cause) (a : Int) : (s.raiseHere c a).mem = s.mem := rfl
@[simp] theorem State.raiseHere_sym (c : Cause) (a : Int) : (s.raiseHere c a).sym = s.sym := rfl
@[simp] theorem State.raiseHere_outTrace (c : Cause) (a : Int) : (s.raiseHere c a).outTrace = s.outTrace := rfl
@[simp] theorem State.raiseHere_hook (c : Cause) (a : Int) : (s.raiseHere c a).hook = s.hook := rfl
@[simp] theorem State.raiseHere_hookCalls (c : Cause) (a : Int) : (s.raiseHere c a).hookCalls = s.hookCalls := rfl

/-! ## `State.fetch` -/

@[simp] theorem State.fetch_acc : (s.fetch).acc = s.acc := rfl
@[simp] theorem State.fetch_pc : (s.fetch).pc = s.pc := rfl
@[simp] theorem State.fetch_ir : (s.fetch).ir = s.currentLine := rfl
@[simp] theorem State.fetch_ar : (s.fetch).ar = s.ar := rfl
@[simp] theorem State.fetch_dr : (s.fetch).dr = s.dr := rfl
@[simp] theorem State.fetch_ctr : (s.fetch).ctr = s.ctr := rfl
@[simp] theorem State.fetch_inpr : (s.fetch).inpr = s.inpr := rfl
@[simp] theorem State.fetch_outr : (s.fetch).outr = s.outr := rfl
@[simp] theorem State.fetch_engine : (s.fetch).engine = s.engine := rfl
@[simp] theorem State.fetch_fault : (s.fetch).fault = s.fault := rfl
@[simp] theorem State.fetch_mem : (s.fetch).mem = s.mem := rfl
@[simp] theorem State.fetch_sym : (s.fetch).sym = s.sym := rfl
@[simp] theorem State.fetch_outTrace : (s.fetch).outTrace = s.outTrace := rfl
@[simp] theorem State.fetch_hook : (s.fetch).hook = s.hook := rfl
@[simp] theorem State.fetch_hookCalls : (s.fetch).hookCalls = s.hookCalls := rfl

/-! ## `State.callHook` -/

@[simp] theorem State.callHook_acc : (s.callHook).acc = s.acc := by
  unfold State.callHook; split <;> rfl
@[simp] theorem State.callHook_pc : (s.callHook).pc = s.pc := by
  unfold State.callHook; split <;> rfl
@[simp] theorem State.callHook_ir : (s.callHook).ir = s.ir := by
  unfold State.callHook; split <;> rfl
@[simp] theorem State.callHook_ar : (s.callHook).ar = s.ar := by
  unfold State.callHook; split <;> rfl
@[simp] theorem State.callHook_dr : (s.callHook).dr = s.dr := by
  unfold State.callHook; split <;> rfl
@[simp] theorem State.callHook_ctr : (s.callHook).ctr = s.ctr := by
  unfold State.callHook; split <;> rfl
@[simp] theorem State.callHook_inpr : (s.callHook).inpr = s.inpr := by
  unfold State.callHook; split <;> rfl
@[simp] theorem State.callHook_outr : (s.callHook).outr = s.outr := by
  unfold State.callHook; split <;> rfl
@[simp] theorem State.callHook_engine : (s.callHook).engine = s.engine := by
  unfold State.callHook; split <;> rfl
@[simp] theorem State.callHook_fault : (s.callHook).fault = s.fault := by
  unfold State.callHook; split <;> rfl
@[simp] theorem State.callHook_mem : (s.callHook).mem = s.mem := by
  unfold State.callHook; split <;> rfl
@[simp] theorem State.callHook_sym : (s.callHook).sym = s.sym := by
  unfold State.callHook; split <;> rfl
@[simp] theorem State.callHook_outTrace : (s.callHook).outTrace = s.outTrace := by
  unfold State.callHook; split <;> rfl
@[simp] theorem State.callHook_hook : (s.callHook).hook = s.hook := by
  unfold State.callHook; split <;> rfl
@[simp] theorem State.callHook_hookCalls : (s.callHook).hookCalls = if s.hook then s.hookCalls ++ [s.view] else s.hookCalls := by
  unfold State.callHook; split <;> rfl

/-! ## `State.withSurplus` -/

@[simp] theorem State.withSurplus_acc (o : Option Int) : (s.withSurplus o).acc = s.acc := by
  cases o <;> rfl
@[simp] theorem State.withSurplus_pc (o : Option Int) : (s.withSurplus o).pc = s.pc := by
  cases o <;> rfl
@[simp] theorem State.withSurplus_ir (o : Option Int) : (s.withSurplus o).ir = s.ir := by
  cases o <;> rfl
@[simp] theorem State.withSurplus_ar (o : Option Int) : (s.withSurplus o).ar = o.getD s.ar := by
  cases o <;> rfl
@[simp] theorem State.withSurplus_dr (o : Option Int) : (s.withSurplus o).dr = s.dr := by
  cases o <;> rfl
@[simp] theorem State.withSurplus_ctr (o : Option Int) : (s.withSurplus o).ctr = s.ctr := by
  cases o <;> rfl
@[simp] theorem State.withSurplus_inpr (o : Option Int) : (s.withSurplus o).inpr = s.inpr := by
  cases o <;> rfl
@[simp] theorem State.withSurplus_outr (o : Option Int) : (s.withSurplus o).outr = s.outr := by
  cases o <;> rfl
@[simp] theorem State.withSurplus_engine (o : Option Int) : (s.withSurplus o).engine = s.engine := by
  cases o <;> rfl
@[simp] theorem State.withSurplus_fault (o : Option Int) : (s.withSurplus o).fault = s.fault := by
  cases o <;> rfl
@[simp] theorem State.withSurplus_mem (o : Option Int) : (s.withSurplus o).mem = s.mem := by
  cases o <;> rfl
@[simp] theorem State.withSurplus_sym (o : Option Int) : (s.withSurplus o).sym = s.sym := by
  cases o <;> rfl
@[simp] theorem State.withSurplus_outTrace (o : Option Int) : (s.withSurplus o).outTrace = s.outTrace := by
  cases o <;> rfl
@[simp] theorem State.withSurplus_hook (o : Option Int) : (s.withSurplus o).hook = s.hook := by
  cases o <;> rfl
@[simp] theorem State.withSurplus_hookCalls (o : Option Int) : (s.withSurplus o).hookCalls = s.hookCalls := by
  cases o <;> rfl

/-! ## Reading the memory of an updated state -/

theorem State.lineAt_congr {t : State} (h : t.mem = s.mem) (a : Int) : t.lineAt a = s.lineAt a := by
  simp only [State.lineAt, h]

theorem State.currentLine_congr {t : State} (hm : t.mem = s.mem) (hp : t.pc = s.pc) : t.currentLine = s.currentLine := by
  simp only [State.currentLine, State.lineAt, hm, hp]

@[simp] theorem State.currentLine_setAr (v : Int) : (s.setAr v).currentLine = s.currentLine := rfl

@[simp] theorem State.currentLine_fetch : s.fetch.currentLine = s.currentLine := rfl

@[simp] theorem State.currentLine_withSurplus (o : Option Int) : (s.withSurplus o).currentLine = s.currentLine := by
  cases o <;> rfl

@[simp] theorem State.readData_setAr (a v : Int) : (s.setAr v).readData a = s.readData a := rfl

theorem State.ext_fields {s t : State} (h1 : s.acc = t.acc) (h2 : s.pc = t.pc) (h3 : s.ir = t.ir) (h4 : s.ar = t.ar)
    (h5 : s.dr = t.dr) (h6 : s.ctr = t.ctr) (h7 : s.inpr = t.inpr) (h8 : s.outr = t.outr) (h9 : s.engine = t.engine)
    (h10 : s.fault = t.fault) (h11 : s.mem = t.mem) (h12 : s.sym = t.sym) (h13 : s.outTrace = t.outTrace)
    (h14 : s.hook = t.hook) (h15 : s.hookCalls = t.hookCalls) : s = t := by
  cases s; cases t; simp_all

end Sys2Proof.Machine
end

