-- ==== Sys2Proof/Laws/Ops.lean ====
section
/-! SUPPORT. One lemma per shared operation that says once everything it can do: the provers cite these and unfold nothing. -/

namespace Sys2Proof.Machine

variable {s t : State} {a v : Int}

theorem validAddr_iff : validAddr a = true ↔ 0 ≤ a ∧ a < Config.memSize := by
  simp [validAddr]

theorem validAddr_lt (h : validAddr a = true) : a.toNat < Config.memSize := by
  rw [validAddr_iff] at h
  omega

/-! ## Data access -/

/-- A data read answers `v` exactly when the cell exists and holds the integer `v` (20_memory.md R45). -/
theorem readData_ok : s.readData a = .ok v ↔ s.CellHolds a v := by
  unfold State.readData State.CellHolds
  by_cases hv : validAddr a = true
  · cases hd : dataValue (s.mem.read a.toNat) with
    | none => simp [hv]
    | some w => simp [hv]
  · simp [hv]

/-- A data read fails in two ways: the address is outside memory, or the cell holds no integer. -/
theorem readData_error {c : Cause} (h : s.readData a = .error c) :
    (validAddr a = false ∧ c = .invalidAddress) ∨
    (validAddr a = true ∧ dataValue (s.mem.read a.toNat) = none ∧ c = .nonNumericCell) := by
  unfold State.readData at h
  by_cases hv : validAddr a = true
  · rw [if_pos hv] at h
    cases hd : dataValue (s.mem.read a.toNat) with
    | none => rw [hd] at h; cases h; exact Or.inr ⟨hv, rfl, rfl⟩
    | some w => rw [hd] at h; cases h
  · rw [if_neg hv] at h
    cases h
    exact Or.inl ⟨by simpa using hv, rfl⟩

/-! ## Operand forms -/

theorem withCell_holds (k : State → Int → Result) (h : s.CellHolds a v) : withCell a s k = k (s.setAr a) v := by
  simp [withCell, readData_ok.2 h]

theorem withCell_invalid (k : State → Int → Result) (h : validAddr a = false) :
    withCell a s k = .next ((s.setAr a).raiseHere .invalidAddress a) := by
  simp [withCell, State.readData, h]

theorem withCell_nonNumeric (k : State → Int → Result) (h : validAddr a = true)
    (hd : dataValue (s.mem.read a.toNat) = none) :
    withCell a s k = .next ((s.setAr a).raiseHere .nonNumericCell a) := by
  simp [withCell, State.readData, h, hd]

/-- Everything a format `M` read can do. -/
theorem withCell_cases (k : State → Int → Result) (a : Int) (s : State) :
    (∃ v, s.CellHolds a v ∧ withCell a s k = k (s.setAr a) v) ∨
    (validAddr a = false ∧ withCell a s k = .next ((s.setAr a).raiseHere .invalidAddress a)) ∨
    (validAddr a = true ∧ dataValue (s.mem.read a.toNat) = none ∧
      withCell a s k = .next ((s.setAr a).raiseHere .nonNumericCell a)) := by
  cases h : s.readData a with
  | ok v => exact Or.inl ⟨v, readData_ok.1 h, withCell_holds k (readData_ok.1 h)⟩
  | error c =>
    rcases readData_error h with ⟨hv, rfl⟩ | ⟨hv, hd, rfl⟩
    · exact Or.inr (Or.inl ⟨hv, withCell_invalid k hv⟩)
    · exact Or.inr (Or.inr ⟨hv, hd, withCell_nonNumeric k hv hd⟩)

theorem withStore_valid (k : State → Result) (h : validAddr a = true) :
    withStore a v s k = k ((s.setAr a).writeCell a.toNat (dec v)) := by
  simp [withStore, State.writeData, h]

theorem withStore_invalid (k : State → Result) (h : validAddr a = false) :
    withStore a v s k = .next ((s.setAr a).raiseHere .invalidAddress a) := by
  simp [withStore, State.writeData, h]

/-- Everything a format `M` write can do. -/
theorem withStore_cases (k : State → Result) (a v : Int) (s : State) :
    (validAddr a = true ∧ withStore a v s k = k ((s.setAr a).writeCell a.toNat (dec v))) ∨
    (validAddr a = false ∧ withStore a v s k = .next ((s.setAr a).raiseHere .invalidAddress a)) := by
  cases h : validAddr a
  · exact Or.inr ⟨rfl, withStore_invalid k h⟩
  · exact Or.inl ⟨rfl, withStore_valid k h⟩

theorem withTarget_valid {t : Target} (k : State → Int → Result) (h : resolveTarget s.sym t = some a)
    (hv : validAddr a = true) : withTarget t s k = k (s.setAr a) a := by
  simp [withTarget, h, hv]

theorem withTarget_invalid {t : Target} (k : State → Int → Result) (h : resolveTarget s.sym t = some a)
    (hv : validAddr a = false) : withTarget t s k = .next ((s.setAr a).raiseHere .invalidAddress a) := by
  simp [withTarget, h, hv]

theorem withTarget_unresolved {t : Target} (k : State → Int → Result) (h : resolveTarget s.sym t = none) :
    withTarget t s k = .next (s.raiseHere .unresolvedLabel s.pc) := by
  simp [withTarget, h]

/-- Everything a jump operand can do. -/
theorem withTarget_cases (k : State → Int → Result) (t : Target) (s : State) :
    (∃ a, resolveTarget s.sym t = some a ∧ validAddr a = true ∧ withTarget t s k = k (s.setAr a) a) ∨
    (∃ a, resolveTarget s.sym t = some a ∧ validAddr a = false ∧
      withTarget t s k = .next ((s.setAr a).raiseHere .invalidAddress a)) ∨
    (resolveTarget s.sym t = none ∧ withTarget t s k = .next (s.raiseHere .unresolvedLabel s.pc)) := by
  cases h : resolveTarget s.sym t with
  | none => exact Or.inr (Or.inr ⟨rfl, withTarget_unresolved k h⟩)
  | some a =>
    cases hv : validAddr a
    · exact Or.inr (Or.inl ⟨a, rfl, hv, withTarget_invalid k h hv⟩)
    · exact Or.inl ⟨a, rfl, hv, withTarget_valid k h hv⟩

/-- A state with no surplus operand written is the state itself. -/
@[simp] theorem withSurplus_none : s.withSurplus none = s := rfl

@[simp] theorem withSurplus_some : s.withSurplus (some a) = s.setAr a := rfl

/-! ## Labels -/

theorem resolveTarget_addr (sym : SymbolTable) (a : Int) : resolveTarget sym (.addr a) = some a := rfl

theorem resolveTarget_label {sym : SymbolTable} {n : Token} {i : Nat} (h : lookupLabel sym n = some i) :
    resolveTarget sym (.label n) = some (i : Int) := by
  simp [resolveTarget, h]

/-! ## MUL -/

/-- What `MUL` does once its multiplier is read: the closed form, or no next state (42_arithmetic.md R122). -/
theorem mulRun_cases (dr acc m : Int) :
    (1 ≤ m ∧ mulRun dr acc (1 - m) = some (acc + (m - 1) * dr)) ∨ (m ≤ 0 ∧ mulRun dr acc (1 - m) = none) := by
  rcases Int.lt_or_le 0 m with h | h
  · exact Or.inl ⟨h, mulRun_of_pos dr acc m h⟩
  · exact Or.inr ⟨h, mulRun_of_nonpos dr acc m h⟩

end Sys2Proof.Machine
end

