-- ==== Sys2Proof/Laws/Exec.lean ====
section
/-! SUPPORT. Each instruction as its operand form and its handler: `exec` unfolded once, so that the lemmas of Laws/Ops.lean apply. -/

namespace Sys2Proof.Machine

variable (s : State)

theorem exec_lom (a : Int) : exec (.lom a) s = withCell a s fun s v => .next ((s.setDr v).setAcc v).advance := rfl

theorem exec_sto (a : Int) : exec (.sto a) s = withStore a s.acc s fun s => .next s.advance := rfl

theorem exec_add (a : Int) : exec (.add a) s = withCell a s fun s v => .next (s.setAcc (s.acc + v)).advance := rfl

theorem exec_sub (a : Int) : exec (.sub a) s = withCell a s fun s v => .next (s.setAcc (s.acc - v)).advance := rfl

theorem exec_and (a : Int) : exec (.and a) s = withCell a s fun s v => .next (s.setAcc (bitAnd s.acc v)).advance := rfl

theorem exec_or (a : Int) : exec (.or a) s = withCell a s fun s v => .next (s.setAcc (bitOr s.acc v)).advance := rfl

theorem exec_xor (a : Int) : exec (.xor a) s = withCell a s fun s v => .next (s.setAcc (bitXor s.acc v)).advance := rfl

/-- `MUL` with its loop in closed form (42_arithmetic.md R122). -/
theorem exec_mul (a : Int) : exec (.mul a) s = withCell a s fun s m =>
    if 1 ≤ m then .next ((s.setCtr 0).setAcc (s.acc + (m - 1) * s.dr)).advance else .fault .hang := by
  have : (fun (s : State) (m : Int) => match mulRun s.dr s.acc (1 - m) with
      | some v => (.next ((s.setCtr 0).setAcc v).advance : Result)
      | none => .fault .hang) =
      fun s m => if 1 ≤ m then .next ((s.setCtr 0).setAcc (s.acc + (m - 1) * s.dr)).advance else .fault .hang := by
    funext s m
    rcases mulRun_cases s.dr s.acc m with ⟨h, e⟩ | ⟨h, e⟩
    · rw [e, if_pos h]
    · rw [e, if_neg (by omega)]
  exact congrArg (withCell a s) this

theorem exec_not (o : Option Int) : exec (.not o) s = .next ((s.withSurplus o).setAcc (bitNot s.acc)).advance := rfl

theorem exec_inr (o : Option Int) : exec (.inr o) s = .next ((s.withSurplus o).setAcc (s.acc + 1)).advance := rfl

theorem exec_inp_set (o : Option Int) {v : Int} (h : s.inpr = some v) :
    exec (.inp o) s = .next ((s.withSurplus o).setAcc v).advance := by
  simp [exec, execInp, h]

theorem exec_inp_unset (o : Option Int) (h : s.inpr = none) :
    exec (.inp o) s = .next ((s.withSurplus o).raiseHere .unsetInput s.pc) := by
  simp [exec, execInp, h]

theorem exec_out (o : Option Int) : exec (.out o) s = .next (s.withSurplus o).emit.advance.callHook := rfl

theorem exec_jum (t : Target) : exec (.jum t) s = withTarget t s fun s a => .next (s.setPc a) := rfl

theorem exec_juz (t : Target) :
    exec (.juz t) s = withTarget t s fun s a => .next (if accIsZero s then s.setPc a else s.advance) := rfl

theorem exec_fin (o : Option Int) : exec (.fin o) s = .next ((s.withSurplus o).setEngine .finished) := rfl

/-! ## Everything an instruction can do -/

/-- `Effect s i t`: the next states `t` an instruction `i` can answer from `s`, one constructor per way. -/
inductive Effect (s : State) : Instr → State → Prop where
  | lom {a v : Int} (h : s.CellHolds a v) : Effect s (.lom a) (((s.setAr a).setDr v).setAcc v).advance
  | sto {a : Int} (h : validAddr a = true) : Effect s (.sto a) ((s.setAr a).writeCell a.toNat (dec s.acc)).advance
  | add {a v : Int} (h : s.CellHolds a v) : Effect s (.add a) ((s.setAr a).setAcc (s.acc + v)).advance
  | sub {a v : Int} (h : s.CellHolds a v) : Effect s (.sub a) ((s.setAr a).setAcc (s.acc - v)).advance
  | mul {a m : Int} (h : s.CellHolds a m) (hm : 1 ≤ m) :
      Effect s (.mul a) (((s.setAr a).setCtr 0).setAcc (s.acc + (m - 1) * s.dr)).advance
  | and {a v : Int} (h : s.CellHolds a v) : Effect s (.and a) ((s.setAr a).setAcc (bitAnd s.acc v)).advance
  | or {a v : Int} (h : s.CellHolds a v) : Effect s (.or a) ((s.setAr a).setAcc (bitOr s.acc v)).advance
  | xor {a v : Int} (h : s.CellHolds a v) : Effect s (.xor a) ((s.setAr a).setAcc (bitXor s.acc v)).advance
  | not {o : Option Int} : Effect s (.not o) ((s.withSurplus o).setAcc (bitNot s.acc)).advance
  | inr {o : Option Int} : Effect s (.inr o) ((s.withSurplus o).setAcc (s.acc + 1)).advance
  | inp {o : Option Int} {v : Int} (h : s.inpr = some v) : Effect s (.inp o) ((s.withSurplus o).setAcc v).advance
  | out {o : Option Int} : Effect s (.out o) (s.withSurplus o).emit.advance.callHook
  | jum {x : Target} {a : Int} (h : resolveTarget s.sym x = some a) (hv : validAddr a = true) :
      Effect s (.jum x) ((s.setAr a).setPc a)
  | juzTaken {x : Target} {a : Int} (h : resolveTarget s.sym x = some a) (hv : validAddr a = true) (hz : s.acc = 0) :
      Effect s (.juz x) ((s.setAr a).setPc a)
  | juzNotTaken {x : Target} {a : Int} (h : resolveTarget s.sym x = some a) (hv : validAddr a = true) (hz : s.acc ≠ 0) :
      Effect s (.juz x) (s.setAr a).advance
  | fin {o : Option Int} : Effect s (.fin o) ((s.withSurplus o).setEngine .finished)
  /-- A cell reader or `STO` whose address is outside memory. -/
  | badAddress {i : Instr} {a : Int} (hi : i = .sto a ∨ i ∈ cellReaders a) (h : validAddr a = false) :
      Effect s i ((s.setAr a).raiseHere .invalidAddress a)
  /-- A cell reader whose cell holds no integer. -/
  | noNumber {i : Instr} {a : Int} (hi : i ∈ cellReaders a) (h : validAddr a = true)
      (hd : dataValue (s.mem.read a.toNat) = none) : Effect s i ((s.setAr a).raiseHere .nonNumericCell a)
  /-- A jump whose target is outside memory. -/
  | badTarget {i : Instr} {x : Target} {a : Int} (hi : i = .jum x ∨ i = .juz x) (h : resolveTarget s.sym x = some a)
      (hv : validAddr a = false) : Effect s i ((s.setAr a).raiseHere .invalidAddress a)
  /-- A jump whose label is not in the table. -/
  | unresolved {i : Instr} {x : Target} (hi : i = .jum x ∨ i = .juz x) (h : resolveTarget s.sym x = none) :
      Effect s i (s.raiseHere .unresolvedLabel s.pc)
  /-- `INP` with `INPR` unset. -/
  | unset {o : Option Int} (h : s.inpr = none) : Effect s (.inp o) ((s.withSurplus o).raiseHere .unsetInput s.pc)

/-- A format `M` reader that answers a next state has read its cell and run its handler, or has faulted. -/
theorem effect_of_withCell {s t : State} {i : Instr} {a : Int} {k : State → Int → Result} (hi : i ∈ cellReaders a)
    (h : withCell a s k = .next t) (hk : ∀ v, s.CellHolds a v → k (s.setAr a) v = .next t → Effect s i t) : Effect s i t := by
  rcases withCell_cases k a s with ⟨v, hv, he⟩ | ⟨hv, he⟩ | ⟨hv, hd, he⟩
  · exact hk v hv (he ▸ h)
  · rw [he] at h; cases h; exact .badAddress (Or.inr hi) hv
  · rw [he] at h; cases h; exact .noNumber hi hv hd

/-- A jump that answers a next state has a target in memory and has run its handler, or has faulted. -/
theorem effect_of_withTarget {s t : State} {i : Instr} {x : Target} {k : State → Int → Result} (hi : i = .jum x ∨ i = .juz x)
    (h : withTarget x s k = .next t)
    (hk : ∀ a, resolveTarget s.sym x = some a → validAddr a = true → k (s.setAr a) a = .next t → Effect s i t) :
    Effect s i t := by
  rcases withTarget_cases k x s with ⟨a, hr, hv, he⟩ | ⟨a, hr, hv, he⟩ | ⟨hr, he⟩
  · exact hk a hr hv (he ▸ h)
  · rw [he] at h; cases h; exact .badTarget hi hr hv
  · rw [he] at h; cases h; exact .unresolved hi hr

/-- Everything an instruction that answers a next state can have done. -/
theorem effect_of_exec {s t : State} {i : Instr} (h : exec i s = .next t) : Effect s i t := by
  cases i with
  | lom a => exact effect_of_withCell (by simp) (exec_lom s a ▸ h) fun v hv e => by cases e; exact .lom hv
  | add a => exact effect_of_withCell (by simp) (exec_add s a ▸ h) fun v hv e => by cases e; exact .add hv
  | sub a => exact effect_of_withCell (by simp) (exec_sub s a ▸ h) fun v hv e => by cases e; exact .sub hv
  | and a => exact effect_of_withCell (by simp) (exec_and s a ▸ h) fun v hv e => by cases e; exact .and hv
  | or a => exact effect_of_withCell (by simp) (exec_or s a ▸ h) fun v hv e => by cases e; exact .or hv
  | xor a => exact effect_of_withCell (by simp) (exec_xor s a ▸ h) fun v hv e => by cases e; exact .xor hv
  | mul a =>
    refine effect_of_withCell (by simp) (exec_mul s a ▸ h) fun m hv e => ?_
    by_cases hm : 1 ≤ m
    · rw [if_pos hm] at e; cases e; exact .mul hv hm
    · rw [if_neg hm] at e; cases e
  | sto a =>
    rcases withStore_cases (fun s => .next s.advance) a s.acc s with ⟨hv, he⟩ | ⟨hv, he⟩
    · rw [exec_sto, he] at h; cases h; exact .sto hv
    · rw [exec_sto, he] at h; cases h; exact .badAddress (Or.inl rfl) hv
  | not o => cases h; exact .not
  | inr o => cases h; exact .inr
  | out o => cases h; exact .out
  | fin o => cases h; exact .fin
  | inp o =>
    cases hi : s.inpr with
    | some v => rw [exec_inp_set s o hi] at h; cases h; exact .inp hi
    | none => rw [exec_inp_unset s o hi] at h; cases h; exact .unset hi
  | jum x => exact effect_of_withTarget (Or.inl rfl) (exec_jum s x ▸ h) fun a hr hv e => by cases e; exact .jum hr hv
  | juz x =>
    refine effect_of_withTarget (Or.inr rfl) (exec_juz s x ▸ h) fun a hr hv e => ?_
    by_cases hz : s.acc = 0
    · simp only [accIsZero, State.setAr_acc, hz, beq_self_eq_true, if_true] at e
      cases e; exact .juzTaken hr hv hz
    · simp only [accIsZero, State.setAr_acc, beq_iff_eq, hz, if_false] at e
      cases e; exact .juzNotTaken hr hv hz

theorem mem_cellReaders {i : Instr} {a : Int} (h : i ∈ cellReaders a) :
    i = .lom a ∨ i = .add a ∨ i = .sub a ∨ i = .mul a ∨ i = .and a ∨ i = .or a ∨ i = .xor a := by
  simpa [cellReaders] using h

/-- Each way of `Effect` happens: from a state that meets its conditions the instruction answers exactly that next state. -/
theorem exec_of_effect {s t : State} {i : Instr} (h : Effect s i t) : exec i s = .next t := by
  cases h with
  | lom h => rw [exec_lom, withCell_holds _ h]
  | sto h => rw [exec_sto, withStore_valid _ h]
  | add h => rw [exec_add, withCell_holds _ h]; rfl
  | sub h => rw [exec_sub, withCell_holds _ h]; rfl
  | mul h hm => rw [exec_mul, withCell_holds _ h, if_pos hm]; rfl
  | and h => rw [exec_and, withCell_holds _ h]; rfl
  | or h => rw [exec_or, withCell_holds _ h]; rfl
  | xor h => rw [exec_xor, withCell_holds _ h]; rfl
  | not => rfl
  | inr => rfl
  | inp h => exact exec_inp_set _ _ h
  | out => rfl
  | jum h hv => rw [exec_jum, withTarget_valid _ h hv]
  | juzTaken h hv hz => rw [exec_juz, withTarget_valid _ h hv]; simp [accIsZero, hz]
  | juzNotTaken h hv hz => rw [exec_juz, withTarget_valid _ h hv]; simp [accIsZero, hz]
  | fin => rfl
  | badAddress hi hv =>
    rcases hi with rfl | hi
    · rw [exec_sto, withStore_invalid _ hv]
    · rcases mem_cellReaders hi with rfl | rfl | rfl | rfl | rfl | rfl | rfl
      · rw [exec_lom, withCell_invalid _ hv]
      · rw [exec_add, withCell_invalid _ hv]
      · rw [exec_sub, withCell_invalid _ hv]
      · rw [exec_mul, withCell_invalid _ hv]
      · rw [exec_and, withCell_invalid _ hv]
      · rw [exec_or, withCell_invalid _ hv]
      · rw [exec_xor, withCell_invalid _ hv]
  | noNumber hi hv hd =>
    rcases mem_cellReaders hi with rfl | rfl | rfl | rfl | rfl | rfl | rfl
    · rw [exec_lom, withCell_nonNumeric _ hv hd]
    · rw [exec_add, withCell_nonNumeric _ hv hd]
    · rw [exec_sub, withCell_nonNumeric _ hv hd]
    · rw [exec_mul, withCell_nonNumeric _ hv hd]
    · rw [exec_and, withCell_nonNumeric _ hv hd]
    · rw [exec_or, withCell_nonNumeric _ hv hd]
    · rw [exec_xor, withCell_nonNumeric _ hv hd]
  | badTarget hi hr hv =>
    rcases hi with rfl | rfl
    · rw [exec_jum, withTarget_invalid _ hr hv]
    · rw [exec_juz, withTarget_invalid _ hr hv]
  | unresolved hi hr =>
    rcases hi with rfl | rfl
    · rw [exec_jum, withTarget_unresolved _ hr]
    · rw [exec_juz, withTarget_unresolved _ hr]
  | unset h => exact exec_inp_unset _ _ h

end Sys2Proof.Machine
end

