-- ==== Sys2Proof/Laws/Host.lean ====
section
/-! SUPPORT. The small lemmas of the host's operations: what the host sees, its two moves, and the equations of a run. -/

namespace Sys2Proof.Machine

variable (s : State)

/-! ## `State.view` -/

@[simp] theorem State.view_acc : s.view.acc = s.acc := rfl
@[simp] theorem State.view_pc : s.view.pc = s.pc := rfl
@[simp] theorem State.view_ir : s.view.ir = s.ir := rfl
@[simp] theorem State.view_ar : s.view.ar = s.ar := rfl
@[simp] theorem State.view_dr : s.view.dr = s.dr := rfl
@[simp] theorem State.view_ctr : s.view.ctr = s.ctr := rfl
@[simp] theorem State.view_inpr : s.view.inpr = s.inpr := rfl
@[simp] theorem State.view_outr : s.view.outr = s.outr := rfl
@[simp] theorem State.view_engine : s.view.engine = s.engine := rfl
@[simp] theorem State.view_fault : s.view.fault = s.fault := rfl
@[simp] theorem State.view_mem : s.view.mem = s.mem := rfl

/-- Calling the hook changes nothing that the host can read. -/
@[simp] theorem State.view_callHook : s.callHook.view = s.view := by
  simp [State.view]

/-! ## The two moves of the host on a loaded engine -/

variable {s}

theorem State.hostSetInpr_running (h : s.engine = .running) (v : Int) : s.hostSetInpr v = s.setInpr v := by
  simp [State.hostSetInpr, h]

theorem State.hostSetInpr_ended (h : s.engine ≠ .running) (v : Int) : s.hostSetInpr v = s := by
  cases he : s.engine <;> simp_all [State.hostSetInpr]

theorem State.forceFinish_running (h : s.engine = .running) : s.forceFinish = s.setEngine .finished := by
  simp [State.forceFinish, h]

theorem State.forceFinish_ended (h : s.engine ≠ .running) : s.forceFinish = s := by
  cases he : s.engine <;> simp_all [State.forceFinish]

/-! ## The equations of a run -/

@[simp] theorem runFor_zero (request : Option Nat) (s : State) : runFor 0 request s = .next s := rfl

theorem runFor_next {t : State} (h : s.engine = .running) (hs : step s = .next t) (k : Nat) (request : Option Nat) :
    runFor (k + 1) request s =
      match request with
      | none => runFor k none t
      | some 0 => .next t.forceFinish
      | some (j + 1) => runFor k (some j) t := by
  rcases request with _ | _ | j <;> simp [runFor, h, hs]

theorem runFor_stopped {r : Fault} (h : s.engine = .running) (hs : step s = .fault r) (k : Nat) (request : Option Nat) :
    runFor (k + 1) request s = .fault r := by
  simp [runFor, h, hs]

end Sys2Proof.Machine
end

