-- ==== Sys2Proof/Laws/Load.lean ====
section
/-! SUPPORT. Laws of load: the memory of a program, the symbol table the prepass builds and when it fails, the check of the
jump operands (70_reset_and_hazards.md R210 to R213). -/

namespace Sys2Proof.Machine

/-! ## The memory of a program -/

theorem memoryOf_rising (lines : List Line) (i : Nat) : (memoryOf i lines).rising i = true := by
  induction lines generalizing i with
  | nil => rfl
  | cons l rest ih =>
    by_cases h : l = []
    · simpa [memoryOf, h] using Memory.rising_mono (ih (i + 1)) (by omega)
    · simp [memoryOf, h, Memory.rising, ih]

/-- Cell `i + k` of a program loaded from cell `i` holds its line `k`; the cells after the last line are empty. -/
theorem memoryOf_read (lines : List Line) (i k : Nat) : (memoryOf i lines).read (i + k) = (lines[k]?).getD [] := by
  induction lines generalizing i k with
  | nil => rfl
  | cons l rest ih =>
    have hlow : (memoryOf (i + 1) rest).read i = [] := Memory.read_of_rising (memoryOf_rising rest (i + 1)) (by omega)
    cases k with
    | zero => by_cases h : l = [] <;> simp [memoryOf, h, Memory.read, hlow]
    | succ k =>
      have hk := ih (i + 1) k
      rw [show i + 1 + k = i + (k + 1) by omega] at hk
      by_cases h : l = [] <;> simp [memoryOf, h, Memory.read, hk]

theorem memoryOf_mem {lines : List Line} {i : Nat} {c : Nat × Line} (h : c ∈ memoryOf i lines) :
    c.1 < i + lines.length ∧ c.2 ≠ [] ∧ c.2 ∈ lines := by
  induction lines generalizing i with
  | nil => cases h
  | cons l rest ih =>
    have later : c ∈ memoryOf (i + 1) rest → c.1 < i + (l :: rest).length ∧ c.2 ≠ [] ∧ c.2 ∈ l :: rest := fun hc => by
      obtain ⟨h1, h2, h3⟩ := ih hc
      exact ⟨by simp only [List.length_cons]; omega, h2, List.mem_cons_of_mem _ h3⟩
    by_cases hl : l = []
    · simp only [memoryOf, if_pos hl] at h
      exact later h
    · simp only [memoryOf, if_neg hl] at h
      rcases List.mem_cons.1 h with rfl | hc
      · exact ⟨by simp, hl, List.mem_cons_self ..⟩
      · exact later hc

/-- The memory of a program that fits is in canonical form. -/
theorem memoryOf_wf {lines : List Line} (h : lines.length ≤ Config.memSize) : (memoryOf 0 lines).wf = true := by
  refine (Memory.wf_iff _).2 ⟨memoryOf_rising lines 0, fun c hc => ?_⟩
  obtain ⟨h1, h2, -⟩ := memoryOf_mem hc
  exact ⟨by omega, h2⟩

/-! ## The prepass -/

theorem lookupLabel_append (sym : SymbolTable) (n k : Token) (i : Nat) :
    lookupLabel (sym ++ [(k, i)]) n = (lookupLabel sym n).or (if k = n then some i else none) := by
  induction sym with
  | nil => rfl
  | cons e rest ih =>
    obtain ⟨m, b⟩ := e
    by_cases h : m = n <;> simp [lookupLabel, h, ih]

/-- What the prepass does with the first line: a line that is no label is passed over; a new label is bound; a label already
bound is rejected. -/
theorem buildSymbols_cons (sym : SymbolTable) (i : Nat) (l : Line) (rest : List Line) :
    ((∀ n, classify l ≠ .label n) ∧ buildSymbols sym i (l :: rest) = buildSymbols sym (i + 1) rest) ∨
    (∃ n, classify l = .label n ∧ lookupLabel sym n = none ∧
      buildSymbols sym i (l :: rest) = buildSymbols (sym ++ [(n, i)]) (i + 1) rest) ∨
    ∃ n, classify l = .label n ∧ lookupLabel sym n ≠ none ∧
      buildSymbols sym i (l :: rest) = .error (.duplicateLabel n i) := by
  cases hc : classify l with
  | label n =>
    cases hl : lookupLabel sym n with
    | none => exact Or.inr (Or.inl ⟨n, rfl, hl, by simp [buildSymbols, hc, hl]⟩)
    | some a => exact Or.inr (Or.inr ⟨n, rfl, by simp [hl], by simp [buildSymbols, hc, hl]⟩)
  | empty => exact Or.inl ⟨by simp, by simp [buildSymbols, hc]⟩
  | comment _ => exact Or.inl ⟨by simp, by simp [buildSymbols, hc]⟩
  | data _ => exact Or.inl ⟨by simp, by simp [buildSymbols, hc]⟩
  | dataJunk _ => exact Or.inl ⟨by simp, by simp [buildSymbols, hc]⟩
  | instr _ _ => exact Or.inl ⟨by simp, by simp [buildSymbols, hc]⟩
  | bad _ => exact Or.inl ⟨by simp, by simp [buildSymbols, hc]⟩

/-- The table the prepass builds: a label is bound in the table it started from, or to the index of the line that defines it. -/
theorem buildSymbols_lookup {lines : List Line} {sym sym' : SymbolTable} {i : Nat}
    (h : buildSymbols sym i lines = .ok sym') (n : Token) (a : Nat) :
    lookupLabel sym' n = some a ↔
      lookupLabel sym n = some a ∨ ∃ k l, a = i + k ∧ lines[k]? = some l ∧ classify l = .label n := by
  induction lines generalizing sym i with
  | nil => cases h; simp
  | cons l rest ih =>
    rcases buildSymbols_cons sym i l rest with ⟨hl, he⟩ | ⟨m, hl, hn, he⟩ | ⟨m, hl, -, he⟩
    · rw [ih (he ▸ h)]
      constructor
      · rintro (h | ⟨k, j, rfl, h1, h2⟩)
        · exact Or.inl h
        · exact Or.inr ⟨k + 1, j, by omega, by simpa using h1, h2⟩
      · rintro (h | ⟨k, j, rfl, h1, h2⟩)
        · exact Or.inl h
        · cases k with
          | zero => cases h1; exact absurd h2 (hl n)
          | succ k => exact Or.inr ⟨k, j, by omega, by simpa using h1, h2⟩
    · rw [ih (he ▸ h), lookupLabel_append]
      constructor
      · rintro (h | ⟨k, j, rfl, h1, h2⟩)
        · cases hs : lookupLabel sym n with
          | some b => rw [hs] at h; exact Or.inl h
          | none =>
            rw [hs, Option.none_or] at h
            split at h
            · next hm => cases h; exact Or.inr ⟨0, l, rfl, rfl, hm ▸ hl⟩
            · cases h
        · exact Or.inr ⟨k + 1, j, by omega, by simpa using h1, h2⟩
      · rintro (h | ⟨k, j, rfl, h1, h2⟩)
        · exact Or.inl (by simp [h])
        · cases k with
          | zero =>
            cases h1
            obtain rfl : m = n := by rw [hl] at h2; exact LineClass.label.inj h2
            exact Or.inl (by simp [hn])
          | succ k => exact Or.inr ⟨k, j, by omega, by simpa using h1, h2⟩
    · rw [he] at h; cases h

/-- When the prepass succeeds: no line defines a label that is bound already, and no two lines define one label (R213). -/
theorem buildSymbols_ok_iff (lines : List Line) (sym : SymbolTable) (i : Nat) :
    (∃ sym', buildSymbols sym i lines = .ok sym') ↔
      (∀ (k : Nat) (l : Line) (n : Token), lines[k]? = some l → classify l = .label n → lookupLabel sym n = none) ∧
      ∀ (j k : Nat) (l m : Line) (n : Token), lines[j]? = some l → lines[k]? = some m →
        classify l = .label n → classify m = .label n → j = k := by
  induction lines generalizing sym i with
  | nil => simp [buildSymbols]
  | cons l rest ih =>
    rcases buildSymbols_cons sym i l rest with ⟨hl, he⟩ | ⟨n, hl, hn, he⟩ | ⟨n, hl, hn, he⟩
    · rw [he, ih]
      constructor
      · rintro ⟨h1, h2⟩
        refine ⟨fun k => ?_, fun j k => ?_⟩
        · cases k with
          | zero => intro a n h hc; cases h; exact absurd hc (hl n)
          | succ k => exact h1 k
        · cases j <;> cases k
          · intros; rfl
          · intro a b n ha _ hc; cases ha; exact absurd hc (hl n)
          · intro a b n _ hb _ hc; cases hb; exact absurd hc (hl n)
          · intro a b n ha hb hc hd
            exact congrArg (· + 1) (h2 _ _ a b n (by simpa using ha) (by simpa using hb) hc hd)
      · rintro ⟨h1, h2⟩
        exact ⟨fun k a n h => h1 (k + 1) a n (by simpa using h), fun j k a b n ha hb hc hd => by
          simpa using h2 (j + 1) (k + 1) a b n (by simpa using ha) (by simpa using hb) hc hd⟩
    · rw [he, ih]
      constructor
      · rintro ⟨h1, h2⟩
        have hfree : ∀ (k : Nat) (a : Line) (m : Token), rest[k]? = some a → classify a = .label m →
            lookupLabel sym m = none ∧ n ≠ m := fun k a m ha hc => by
          have := h1 k a m ha hc
          rw [lookupLabel_append] at this
          cases hs : lookupLabel sym m with
          | some b => simp [hs] at this
          | none => exact ⟨rfl, fun hnm => by simp [hs, hnm] at this⟩
        refine ⟨fun k => ?_, fun j k => ?_⟩
        · cases k with
          | zero =>
            intro a m h hc
            cases h
            rw [hl] at hc
            cases hc
            exact hn
          | succ k => exact fun a m h hc => (hfree k a m (by simpa using h) hc).1
        · cases j <;> cases k
          · intros; rfl
          · intro a b m ha hb hc hd
            cases ha
            rw [hl] at hc
            cases hc
            exact absurd rfl (hfree _ b n (by simpa using hb) hd).2
          · intro a b m ha hb hc hd
            cases hb
            rw [hl] at hd
            cases hd
            exact absurd rfl (hfree _ a n (by simpa using ha) hc).2
          · intro a b m ha hb hc hd
            exact congrArg (· + 1) (h2 _ _ a b m (by simpa using ha) (by simpa using hb) hc hd)
      · rintro ⟨h1, h2⟩
        refine ⟨fun k a m h hc => ?_, fun j k a b m ha hb hc hd => by
          simpa using h2 (j + 1) (k + 1) a b m (by simpa using ha) (by simpa using hb) hc hd⟩
        rw [lookupLabel_append, h1 (k + 1) a m (by simpa using h) hc, Option.none_or]
        by_cases hnm : n = m
        · subst hnm
          have := h2 0 (k + 1) l a n rfl (by simpa using h) hl hc
          omega
        · simp [hnm]
    · rw [he]
      constructor
      · rintro ⟨s, hs⟩; cases hs
      · rintro ⟨h1, -⟩; exact absurd (h1 0 l n rfl hl) hn

theorem buildSymbols_error {lines : List Line} {sym : SymbolTable} {i : Nat} {e : LoadError}
    (h : buildSymbols sym i lines = .error e) : ∃ n k, e = .duplicateLabel n k := by
  induction lines generalizing sym i with
  | nil => cases h
  | cons l rest ih =>
    rcases buildSymbols_cons sym i l rest with ⟨-, he⟩ | ⟨m, -, -, he⟩ | ⟨m, -, -, he⟩
    · exact ih (he ▸ h)
    · exact ih (he ▸ h)
    · rw [he] at h; cases h; exact ⟨_, _, rfl⟩

/-! ## The check of the jump operands -/

/-- Which label a line needs: that of a jump line whose one operand token is no integer (R213). -/
theorem neededLabel_eq_some {line : Line} {t : Token} :
    neededLabel line = some t ↔ ∃ m, m ∈ [Mnemonic.JUM, .JUZ] ∧ classify line = .instr m [t] ∧ isInt t = false := by
  unfold neededLabel
  cases hc : classify line with
  | instr m args =>
    match args with
    | [] => simp
    | [u] =>
      cases hu : isInt u <;> cases m <;> simp [isJump, hu] <;> rintro rfl <;> simp [hu]
    | _ :: _ :: _ => simp
  | empty => simp
  | comment _ => simp
  | label _ => simp
  | data _ => simp
  | dataJunk _ => simp
  | bad _ => simp

/-- The check passes exactly when every label a line needs is in the table (R213). -/
theorem findUndefined_none_iff (lines : List Line) (sym : SymbolTable) (i : Nat) :
    findUndefined sym i lines = none ↔ ∀ l ∈ lines, ∀ t, neededLabel l = some t → lookupLabel sym t ≠ none := by
  induction lines generalizing i with
  | nil => simp [findUndefined]
  | cons l rest ih =>
    cases hn : neededLabel l with
    | none => simp [findUndefined, hn, ih]
    | some t => cases hl : lookupLabel sym t <;> simp [findUndefined, hn, hl, ih]

theorem findUndefined_some {lines : List Line} {sym : SymbolTable} {i : Nat} {e : LoadError}
    (h : findUndefined sym i lines = some e) : ∃ n k, e = .undefinedLabel n k := by
  induction lines generalizing i with
  | nil => cases h
  | cons l rest ih =>
    cases hn : neededLabel l with
    | none => simp only [findUndefined, hn] at h; exact ih h
    | some t =>
      cases hl : lookupLabel sym t with
      | none => simp only [findUndefined, hn, hl, Option.some.injEq] at h; exact ⟨_, _, h.symm⟩
      | some a => simp only [findUndefined, hn, hl] at h; exact ih h

/-! ## Load -/

/-- An accepted load: the program fits, the prepass and the check succeed, and the state is the launch (R210). -/
theorem load_ok_iff {lines : List Line} {init : Init} {s : State} :
    load lines init = .ok s ↔ lines.length ≤ Config.memSize ∧ ∃ sym, buildSymbols [] 0 lines = .ok sym ∧
      findUndefined sym 0 lines = none ∧ s = launch (memoryOf 0 lines) sym init := by
  unfold load
  by_cases hl : Config.memSize < lines.length
  · simp [hl]
  · rw [if_neg hl]
    cases hb : buildSymbols [] 0 lines with
    | error e => simp
    | ok sym =>
      cases hf : findUndefined sym 0 lines with
      | some e => simp [hf]
      | none => simp [hf, Nat.le_of_not_lt hl, eq_comm]

end Sys2Proof.Machine
end

