-- ==== Sys2Proof/Laws/PerInstr.lean ====
section
/-! SUPPORT. The family `EncodeClass`: the canonical line of a well-formed instruction is an instruction line with its
mnemonic and its operand tokens (30_encoding.md R78: "Classifying the canonical text gives back the same class and fields"). -/

namespace Sys2Proof.Laws.EncodeClass

open Sys2Proof Sys2Proof.Machine

/-- The class of the canonical line of `i`. -/
def Statement (i : Instr) : Prop := i.wf = true → classify (encode i) = .instr i.mnemonic (argTokens i)

theorem address (m : Mnemonic) (a : Int) : classify (joinLine m [dec a]) = .instr m [dec a] :=
  classify_mnemonic_arg m (dec_isToken a)

theorem surplus (m : Mnemonic) (o : Option Int) :
    classify (joinLine m (o.map dec).toList) = .instr m (o.map dec).toList := by
  cases o with
  | none => exact classify_mnemonic m
  | some a => exact address m a

theorem target (m : Mnemonic) {t : Target} (h : t.wf = true) :
    classify (joinLine m [targetToken t]) = .instr m [targetToken t] :=
  classify_mnemonic_arg m (targetToken_isToken h)

theorem lom (a : Int) : Statement (.lom a) := fun _ => address .LOM a
theorem sto (a : Int) : Statement (.sto a) := fun _ => address .STO a
theorem add (a : Int) : Statement (.add a) := fun _ => address .ADD a
theorem sub (a : Int) : Statement (.sub a) := fun _ => address .SUB a
theorem mul (a : Int) : Statement (.mul a) := fun _ => address .MUL a
theorem and (a : Int) : Statement (.and a) := fun _ => address .AND a
theorem or (a : Int) : Statement (.or a) := fun _ => address .OR a
theorem xor (a : Int) : Statement (.xor a) := fun _ => address .XOR a
theorem not (o : Option Int) : Statement (.not o) := fun _ => surplus .NOT o
theorem inr (o : Option Int) : Statement (.inr o) := fun _ => surplus .INR o
theorem inp (o : Option Int) : Statement (.inp o) := fun _ => surplus .INP o
theorem out (o : Option Int) : Statement (.out o) := fun _ => surplus .OUT o
theorem jum (t : Target) : Statement (.jum t) := fun h => target .JUM h
theorem juz (t : Target) : Statement (.juz t) := fun h => target .JUZ h
theorem fin (o : Option Int) : Statement (.fin o) := fun _ => surplus .FIN o

end Sys2Proof.Laws.EncodeClass
end

