-- ==== Sys2Proof/Laws/Step.lean ====
section
/-! SUPPORT. Everything a step can do, said once (40_step_cycle.md R90); what the machine does next after each class of line. -/

namespace Sys2Proof.Machine

variable {s : State}

theorem step_entryFault (hr : s.engine = .running) (hv : validAddr s.pc = false) :
    step s = .next (s.raise .invalidAddress s.pc []) := by
  simp [step, State.stepEngine, State.cycle, hr, hv]

theorem step_skip (hr : s.engine = .running) (hv : validAddr s.pc = true) (hd : decodeFetched s.currentLine = .skip) :
    step s = .next s.fetch.advance := by
  simp [step, State.stepEngine, State.cycle, hr, hv, hd, State.perform]

theorem step_reject {e : DecodeError} (hr : s.engine = .running) (hv : validAddr s.pc = true)
    (hd : decodeFetched s.currentLine = .reject e) : step s = .next (s.fetch.raiseHere (causeOf e) s.pc) := by
  simp [step, State.stepEngine, State.cycle, hr, hv, hd, State.perform]

theorem step_run {i : Instr} (h : s.Fetches i) : step s = exec i s.fetch := by
  simp [step, State.stepEngine, State.cycle, h.1, h.2.1, h.2.2, State.perform]

theorem step_ended (h : s.engine ≠ .running) : step s = .next s := by
  cases he : s.engine with
  | running => exact absurd he h
  | finished => simp [step, State.stepEngine, he]
  | faulted => simp [step, State.stepEngine, he]

/-- Everything a step can do: nothing, if the engine is not running; the entry fault; a skip; a fault of the fetched line; or
the decoded instruction on the state with `IR` written. -/
theorem step_cases (s : State) :
    (s.engine ≠ .running ∧ step s = .next s) ∨
    (s.engine = .running ∧ validAddr s.pc = false ∧ step s = .next (s.raise .invalidAddress s.pc [])) ∨
    (s.engine = .running ∧ validAddr s.pc = true ∧ decodeFetched s.currentLine = .skip ∧
      step s = .next s.fetch.advance) ∨
    (∃ e, s.engine = .running ∧ validAddr s.pc = true ∧ decodeFetched s.currentLine = .reject e ∧
      step s = .next (s.fetch.raiseHere (causeOf e) s.pc)) ∨
    (∃ i, s.Fetches i ∧ step s = exec i s.fetch) := by
  by_cases hr : s.engine = .running
  · cases hv : validAddr s.pc with
    | false => exact Or.inr (Or.inl ⟨hr, rfl, step_entryFault hr hv⟩)
    | true =>
      cases hd : decodeFetched s.currentLine with
      | skip => exact Or.inr (Or.inr (Or.inl ⟨hr, rfl, rfl, step_skip hr hv hd⟩))
      | reject e => exact Or.inr (Or.inr (Or.inr (Or.inl ⟨e, hr, rfl, rfl, step_reject hr hv hd⟩)))
      | run i => exact Or.inr (Or.inr (Or.inr (Or.inr ⟨i, ⟨hr, hv, hd⟩, step_run ⟨hr, hv, hd⟩⟩)))
  · exact Or.inl ⟨hr, step_ended hr⟩

/-- The line at a valid address is the line of the cell. -/
theorem lineAt_valid {a : Int} (h : validAddr a = true) : s.lineAt a = s.mem.read a.toNat := by
  simp [State.lineAt, h]

end Sys2Proof.Machine
end

