-- ==== Sys2Proof/Tests/Slice0.lean ====
section
/-! SUPPORT. The model's own tests. Every expected value stands in 95_test_vectors.md (its number in the comment) or is worked
out by hand from the rule named there; the witnesses meet the hypotheses of the statements. -/

namespace Sys2Proof.Tests

open Sys2Proof Sys2Proof.Machine

/-! ## Helpers -/

/-- The cells of a test, as text. -/
def cells (l : List (Nat × String)) : Memory := l.map fun c => (c.1, c.2.toList)

/-- The reset state with some cells filled. -/
def at0 (l : List (Nat × String)) : State := { State.reset with mem := cells l }

/-- A part of the state an outcome leads to. -/
def part {α : Type} (f : State → α) : Result → Option α
  | .next t => some (f t)
  | .fault _ => none
  | .refused _ => none

/-- Whether an outcome is the hang. -/
def hangs : Result → Bool
  | .next _ => false
  | .fault .hang => true
  | .refused _ => false

/-- The fault record and the control state an outcome leads to. -/
def faultOf (r : Result) : Option (EngineState × Option FaultRecord) := part (fun t => (t.engine, t.fault)) r

/-- A program of the spec's vectors, loaded with the default launch values. -/
def loaded (lines : List String) (init : Init := {}) : Except LoadError State := load (lines.map String.toList) init

/-- Why a program is rejected. -/
def rejection (lines : List String) : Option LoadError :=
  match loaded lines with
  | .ok _ => none
  | .error e => some e

/-! ## Well-formedness: one ill-formed term for each check, refused -/

theorem test_wf_label : (Instr.jum (.label "loop".toList)).wf = true := by decide
theorem test_wf_refuses_empty_label : (Instr.jum (.label [])).wf = false := by decide
theorem test_wf_refuses_space_in_label : (Instr.juz (.label "a b".toList)).wf = false := by decide
theorem test_wf_refuses_tab_in_label : (Instr.jum (.label ['a', '\t'])).wf = false := by decide
theorem test_wf_refuses_line_end_in_label : (Instr.jum (.label ['a', '\n'])).wf = false := by decide
theorem test_wf_refuses_integer_label : (Instr.juz (.label "-12".toList)).wf = false := by decide

/-! ## Decoding: every constructor from its line (E19 to E38) -/

theorem test_decode_lom : decodeFetched "LOM 3".toList = .run (.lom 3) := by decide
theorem test_decode_lom_spaced : decodeFetched "LOM   03 ".toList = .run (.lom 3) := by decide
theorem test_decode_lom_negative : decodeFetched "LOM -1".toList = .run (.lom (-1)) := by decide
theorem test_decode_sto : decodeFetched "STO 7".toList = .run (.sto 7) := by decide
theorem test_decode_add : decodeFetched "ADD 13".toList = .run (.add 13) := by decide
theorem test_decode_sub : decodeFetched "SUB 15".toList = .run (.sub 15) := by decide
theorem test_decode_mul : decodeFetched "MUL 6".toList = .run (.mul 6) := by decide
theorem test_decode_and : decodeFetched "AND 8".toList = .run (.and 8) := by decide
theorem test_decode_or : decodeFetched "OR 9".toList = .run (.or 9) := by decide
theorem test_decode_xor : decodeFetched "XOR 10".toList = .run (.xor 10) := by decide
theorem test_decode_not : decodeFetched "NOT".toList = .run (.not none) := by decide
theorem test_decode_inr : decodeFetched "INR".toList = .run (.inr none) := by decide
theorem test_decode_inp : decodeFetched "INP".toList = .run (.inp none) := by decide
theorem test_decode_out : decodeFetched "OUT".toList = .run (.out none) := by decide
theorem test_decode_out_surplus : decodeFetched "OUT 5".toList = .run (.out (some 5)) := by decide
theorem test_decode_jum_label : decodeFetched "JUM loop".toList = .run (.jum (.label "loop".toList)) := by decide
theorem test_decode_jum_address : decodeFetched "JUM 7".toList = .run (.jum (.addr 7)) := by decide
theorem test_decode_juz : decodeFetched "JUZ end".toList = .run (.juz (.label "end".toList)) := by decide
theorem test_decode_fin : decodeFetched "FIN".toList = .run (.fin none) := by decide

/-- E23, E24, E25, E26, E30, E35: unusable operand tokens. -/
theorem test_decode_bad_operands :
    ["LOM", "LOM 3 4", "LOM 3 #load", "LOM loop", "NOT end", "JUM"].map (fun l => decodeFetched l.toList) =
      List.replicate 6 (.reject .invalidOperand) := by decide

/-- E1, E2, E9, E10, E15, E16, E18, E21, E22: nothing to execute. -/
theorem test_decode_bad_lines :
    ["", " \t ", ":", "loop: INR", "+5", "-", "3.5", "lom 3", "HALT"].map (fun l => decodeFetched l.toList) =
      List.replicate 9 (.reject .invalidOpcode) := by decide

/-- E3 to E8, E11 to E14, E17: comments, labels and data are passed over. -/
theorem test_decode_skips :
    ["# data", "#x:", "  # indented", "loop:", "FIN:", "5:", "7", "-12", "007", "-0", "12 apples"].map
      (fun l => decodeFetched l.toList) = List.replicate 11 .skip := by decide

/-- E6, E7, E11 to E14, E17: the classes themselves. -/
theorem test_classify :
    ["loop:", "FIN:", "-12", "007", "-0"].map (fun l => classify l.toList) =
      [.label "loop".toList, .label "FIN".toList, .data (-12), .data 7, .data 0] ∧
    classify "12 apples".toList = .dataJunk "12 apples".toList ∧ classify "#x:".toList = .comment "#x:".toList := by decide

/-- E31, E32, E34: the bundles of jumps. -/
theorem test_bundle_jumps :
    ["loop", "end", "Loop"].map (fun l => (bundleOf [("loop".toList, 0), ("end".toList, 4)] (.jum (.label l.toList))).toOption) =
      [some ⟨12, some 0⟩, some ⟨12, some 4⟩, none] := by decide

/-! ## Encoding and the table's words -/

theorem test_encode : encode (.add (-13)) = "ADD -13".toList ∧ encode (.fin none) = "FIN".toList := by decide

/-- Canonical text (30_encoding.md R78): an instruction, data, a label. -/
theorem test_canonical :
    ["LOM   03 ", " -0", " loop: ", "LOM 3 4 ", "   "].map (fun l => canonical l.toList) =
      ["LOM 3".toList, "0".toList, "loop:".toList, "LOM 3 4 ".toList, []] := by decide

/-- The fifteen rows of opcode_table.json in order. -/
theorem test_table_rows :
    (List.range 15).map (fun w => (decodeTableWord 8 w).map Instr.mnemonic) = opcodeTable.map some := by decide

theorem test_table_fifteen : decodeTableWord 8 15 = none := by decide

/-- The first step after reset runs the placed instruction: row 12 is `JUM`, with operand 0; row 14 is `FIN`. -/
theorem test_table_step :
    part (fun t => (t.ir, t.ar, t.pc)) (step (State.reset.withFetchWord 8 12)) = some ("JUM 0".toList, 0, 0) ∧
    part State.engine (step (State.reset.withFetchWord 8 14)) = some .finished := by decide

/-! ## One step of each instruction -/

/-- T2. -/
theorem test_lom :
    part (fun t => (t.acc, t.dr, t.ar, t.pc)) (step { at0 [(0, "LOM 9"), (9, "-12")] with acc := 5 }) =
      some (-12, -12, 9, 1) := by decide

/-- T4: no width. -/
theorem test_lom_wide :
    part (fun t => (t.acc, t.dr)) (step (at0 [(0, "LOM 9"), (9, "123456789012345678901234567890")])) =
      some (123456789012345678901234567890, 123456789012345678901234567890) := by decide

/-- T11. -/
theorem test_sto :
    part (fun t => (t.mem.read 31, t.ar, t.acc)) (step { at0 [(0, "STO 31")] with acc := -5 }) =
      some ("-5".toList, 31, -5) := by decide

/-- T13: a store to its own cell completes. -/
theorem test_sto_self :
    part (fun t => (t.mem.read 0, t.pc, t.ir)) (step { at0 [(0, "STO 0")] with acc := 9 }) =
      some ("9".toList, 1, "STO 0".toList) := by decide

/-- A2. -/
theorem test_add :
    part (fun t => (t.acc, t.dr)) (step { at0 [(0, "ADD 8"), (8, "1")] with acc := 9223372036854775807, dr := 4 }) =
      some (9223372036854775808, 4) := by decide

/-- A7. -/
theorem test_add_non_numeric :
    faultOf (step { at0 [(0, "ADD 8"), (8, "FIN")] with acc := 4 }) =
      some (.faulted, some ⟨.nonNumericCell, 8, "ADD 8".toList⟩) := by decide

/-- A4, A5. -/
theorem test_sub :
    part State.acc (step { at0 [(0, "SUB 8"), (8, "5")] with acc := 3 }) = some (-2) ∧
    part State.acc (step (at0 [(0, "SUB 8"), (8, "-7")])) = some 7 := by decide

/-- M10, M4. -/
theorem test_mul :
    part (fun t => (t.acc, t.ctr)) (step { at0 [(0, "MUL 6"), (6, "3")] with acc := 2, dr := 5, ctr := 77 }) = some (12, 0) ∧
    part (fun t => (t.acc, t.dr)) (step { at0 [(0, "MUL 6"), (6, "4")] with acc := 5, dr := -2 }) = some (-1, -2) := by decide

/-- M6, M7: the hang; M3: the multiplier 1. -/
theorem test_mul_hangs :
    hangs (step { at0 [(0, "MUL 6"), (6, "0")] with acc := 6, dr := 6 }) = true ∧
    hangs (step { at0 [(0, "MUL 6"), (6, "-3")] with acc := 6, dr := 6 }) = true ∧
    part State.acc (step { at0 [(0, "MUL 6"), (6, "1")] with acc := 10, dr := 3 }) = some 10 := by decide

/-- L2, L3, L6. -/
theorem test_and :
    [((-6 : Int), "3"), (-4, "-7"), (18446744073709551616, "18446744073709551615")].map
      (fun p => part State.acc (step { at0 [(0, "AND 8"), (8, p.2)] with acc := p.1 })) = [some 2, some (-8), some 0] := by decide

/-- L8, L9, L10. -/
theorem test_or :
    [((-6 : Int), "3"), (-4, "-7"), (5, "-1")].map
      (fun p => part State.acc (step { at0 [(0, "OR 8"), (8, p.2)] with acc := p.1 })) = [some (-5), some (-3), some (-1)] := by
  decide

/-- L12, L14, L17. -/
theorem test_xor :
    [((11 : Int), "-1"), (-4, "-7"), (-1, "18446744073709551616")].map
      (fun p => part State.acc (step { at0 [(0, "XOR 8"), (8, p.2)] with acc := p.1 })) =
      [some (-12), some 5, some (-18446744073709551617)] := by decide

/-- L19, L20. -/
theorem test_not :
    part (fun t => (t.acc, t.ar, t.pc)) (step { at0 [(0, "NOT")] with acc := -1, ar := 4 }) = some (0, 4, 1) ∧
    part State.acc (step { at0 [(0, "NOT")] with acc := 5 }) = some (-6) := by decide

/-- A8, A9. -/
theorem test_inr :
    part (fun t => (t.acc, t.ar, t.pc)) (step { at0 [(0, "INR")] with acc := -3, ar := 4 }) = some (-2, 4, 1) ∧
    part State.acc (step { at0 [(0, "INR")] with acc := -1 }) = some 0 := by decide

/-- I1. -/
theorem test_inp :
    part (fun t => (t.acc, t.inpr, t.pc)) (step { at0 [(0, "INP")] with inpr := some 12 }) = some (12, some 12, 1) := by decide

/-- I3. -/
theorem test_inp_unset : faultOf (step (at0 [(0, "INP")])) = some (.faulted, some ⟨.unsetInput, 0, "INP".toList⟩) := by decide

/-- O2, O3. -/
theorem test_out :
    part (fun t => (t.outr, t.outTrace, t.ar, t.hookCalls)) (step { at0 [(0, "OUT 5")] with outr := some 7, outTrace := [7] }) =
      some (some 0, [7, 0], 5, []) := by decide

/-- O1 with a hook: it is called once and sees `PC` advanced, and memory (44_io.md R141). -/
theorem test_out_hook :
    part State.hookCalls (step { at0 [(0, "OUT")] with acc := 7, hook := true }) =
      some [⟨7, 1, "OUT".toList, 0, 0, 0, none, some 7, .running, none, cells [(0, "OUT")]⟩] := by decide

/-- J1. -/
theorem test_jum :
    part (fun t => (t.ar, t.pc)) (step { at0 [(3, "JUM loop")] with pc := 3, ar := 9, sym := [("loop".toList, 0)] }) =
      some (0, 0) := by decide

/-- J5. -/
theorem test_jum_outside :
    part (fun t => (t.fault, t.pc, t.ar)) (step (at0 [(0, "JUM 32")])) =
      some (some ⟨.invalidAddress, 32, "JUM 32".toList⟩, 0, 32) := by decide

/-- J7, J8. -/
theorem test_juz :
    [(0 : Int), -1].map (fun v => part (fun t => (t.ar, t.pc))
      (step { at0 [(2, "JUZ end")] with acc := v, pc := 2, sym := [("end".toList, 4)] })) = [some (4, 4), some (4, 3)] := by decide

/-- J9: the target is checked although the jump is not taken. -/
theorem test_juz_outside :
    faultOf (step { at0 [(0, "JUZ 99")] with acc := 1 }) =
      some (.faulted, some ⟨.invalidAddress, 99, "JUZ 99".toList⟩) := by decide

/-- J11, J13. -/
theorem test_fin :
    part (fun t => (t.engine, t.pc, t.ir)) (step { at0 [(2, "FIN")] with pc := 2 }) = some (.finished, 2, "FIN".toList) ∧
    part (fun t => (t.engine, t.pc, t.ar)) (step { at0 [(2, "FIN 9")] with pc := 2 }) = some (.finished, 2, 9) := by decide

/-- T5, T7, T8. -/
theorem test_read_faults :
    ["LOM 9", "LOM 32", "LOM -1"].map (fun l => part (fun t => (t.fault, t.ar)) (step (at0 [(0, l)]))) =
      [some (some ⟨.nonNumericCell, 9, "LOM 9".toList⟩, 9), some (some ⟨.invalidAddress, 32, "LOM 32".toList⟩, 32),
        some (some ⟨.invalidAddress, -1, "LOM -1".toList⟩, -1)] := by decide

/-- T14: a store outside memory leaves memory as it was. -/
theorem test_store_fault :
    part (fun t => (t.fault, t.mem)) (step { at0 [(0, "STO 32")] with acc := 9 }) =
      some (some ⟨.invalidAddress, 32, "STO 32".toList⟩, cells [(0, "STO 32")]) := by decide

/-- F2: past the last cell. -/
theorem test_past_the_end :
    part (fun t => (t.fault, t.ir)) (step { State.reset with pc := 32, ir := "INR".toList }) =
      some (some ⟨.invalidAddress, 32, []⟩, "INR".toList) := by decide

/-! ## Load and the host -/

/-- F9, F12, F14, F16, F20: which programs are rejected, and why. -/
theorem test_load_rejections :
    [[], ["a:", "a:", "FIN"], ["JUM nowhere"], ["#x:", "JUM x"], ["a:", "a:", "JUM b"], ["a:", "A:", "FIN"]].map rejection =
      [none, some (.duplicateLabel "a".toList 1), some (.undefinedLabel "nowhere".toList 0),
        some (.undefinedLabel "x".toList 1), some (.duplicateLabel "a".toList 1), none] := by decide

/-- F10, F11. -/
theorem test_load_size :
    rejection (List.replicate 32 "") = none ∧ rejection (List.replicate 33 "") = some .programTooLarge := by decide

/-- F15: a forward reference is bound to the label's own cell. -/
theorem test_load_symbols :
    (loaded ["JUM end", "end:", "FIN"]).toOption.map (fun s => (s.sym, s.mem.read 2)) =
      some ([("end".toList, 1)], "FIN".toList) := by decide

/-- The state after reset is the launch of the program of no lines (70_reset_and_hazards.md R211). -/
theorem test_reset_is_a_launch : load [] {} = .ok State.reset := rfl

/-- F8. -/
theorem test_force_finish : ({ State.reset with pc := 5 }).forceFinish = { State.reset with pc := 5, engine := .finished } := by
  decide

/-- I4: the latest value alone counts; 50_host_interface.md R166: no effect on an engine that will not step again. -/
theorem test_set_inpr :
    ((State.reset.hostSetInpr 1).hostSetInpr 2).inpr = some 2 ∧
    (({ State.reset with engine := .finished }).hostSetInpr 1).inpr = none := by decide

/-- P7e: the run never ends by itself; a request during its second step ends it after that step (50_host_interface.md R167). -/
theorem test_run_request :
    part (fun t => (t.engine, t.pc)) (runFor 5 (some 1) (at0 [(0, "INR"), (1, "JUM 1")])) = some (.finished, 1) ∧
    part State.engine (runFor 5 none (at0 [(0, "JUM 0")])) = some .running := by decide

/-- P7a by `run`, then a read-out of the fault record; P7e has not returned, and nothing follows it. -/
theorem test_session_run :
    (match runSession [.load ["JUM 32".toList] {}, .run 9 none, .read .faultRecord] none with
      | .next (replies, _) => replies
      | .fault _ => []
      | .refused _ => []) =
      [.accepted, .ended .faulted, .value (.faultRecord (some ⟨.invalidAddress, 32, "JUM 32".toList⟩))] ∧
    (match runSession [.load ["JUM 0".toList, "FIN".toList] {}, .run 2 none, .step] none with
      | .next (replies, _) => replies
      | .fault _ => []
      | .refused _ => []) = [.accepted, .unreturned] := by decide

/-- P1, first step, through the host's operations; before the load there is no engine. -/
theorem test_session :
    (match runSession [.step, .load ["LOM 3".toList, "OUT".toList, "FIN".toList, "7".toList] {}, .step] none with
      | .next (replies, some s) => some (replies, s.acc, s.view.readReg .DR)
      | .next (_, none) => none
      | .fault _ => none
      | .refused _ => none) = some ([.noEngine, .accepted, .stepped .stillRunning], 7, .int 7) := by decide

/-! ## Witnesses: concrete inputs that meet the hypotheses of the statements -/

/-- A state whose cell 31 holds 7, cell 30 holds 1, cell 29 holds 0, cell 0 holds an instruction, and the rest is empty. -/
def sample : State :=
  { State.reset with
    acc := 2
    dr := 3
    mem := cells [(0, "ADD 31"), (1, "LOM x"), (2, "JUM gone"), (3, "l:"), (4, "# c"), (5, "HALT"), (6, "STO 31"), (7, "MUL 29"),
      (8, "FIN"), (9, "OUT"), (10, "LOM 31"), (11, "INR"), (29, "0"), (30, "1"), (31, "7 ")]
    sym := [("l".toList, 3)] }

theorem witness_DecodeOfEncodeIsTheInstruction :
    (Instr.jum (.label "l".toList)).wf = true ∧ (Instr.lom (-1)).wf = true := by decide

theorem witness_DecodedInstructionIsWellFormed :
    isLine "JUM l".toList = true ∧ decodeFetched "JUM l".toList = .run (.jum (.label "l".toList)) := by decide

theorem witness_DecimalTextIsCanonical :
    (∀ d ∈ ['0', '9'], '0' ≤ d ∧ d ≤ '9') ∧ intOf (['0', '9'] ++ ['3']) = 93 ∧ (-10 : Int) ≠ 0 ∧ dec (-10) = "-10".toList :=
  ⟨by simp, rfl, by decide, rfl⟩

theorem witness_TokensAreMaximalRuns :
    (∀ c ∈ ['\t'] ++ [' '], c = ' ' ∨ c = '\t') ∧
    (['a'] ≠ ([] : Line) ∧ ∀ c ∈ ['a'], c ≠ ' ' ∧ c ≠ '\t') ∧
    (∀ p ∈ [([' ', '\t'], ['b', ':'])], (p.1 ≠ [] ∧ ∀ c ∈ p.1, c = ' ' ∨ c = '\t') ∧
      (p.2 ≠ [] ∧ ∀ c ∈ p.2, c ≠ ' ' ∧ c ≠ '\t')) ∧
    tokens (['\t'] ++ ['a'] ++ [' ', '\t', 'b', ':'] ++ [' ']) = [['a'], ['b', ':']] := ⟨by simp, by simp, by simp, rfl⟩

/-- One line of each class; the edges `#:` (a comment), `::` (a label), `:` and `a: b` (bad), `-` (bad). -/
theorem witness_LineClassesByTokens :
    (["", "#:", "::", "-7", "7 a", "OR 9", ":", "a: b", "-"].map fun l => tokens l.toList) =
      [[], ['#' :: [':']], [[':'] ++ [':']], ["-7".toList], ["7".toList, "a".toList], ["OR".toList, "9".toList], [[':']],
        ["a:".toList, "b".toList], ["-".toList]] ∧
    [':'].head? ≠ some '#' ∧ isInt "-7".toList = true ∧ isInt "7".toList = true ∧ isInt "-".toList = false ∧
    isInt "a:".toList = false ∧ (["a:", "-", ":"].map fun l => mnemonicOf l.toList) = [none, none, none] ∧
    dataValue "-7".toList = some (-7) := by decide

/-- A line of each class that `CanonicalTextActsAlike` names. -/
theorem witness_CanonicalTextActsAlike :
    classify [] = .empty ∧ classify "-0".toList = .data 0 ∧ classify " l:".toList = .label "l".toList ∧
    classify "FIN ".toList = .instr .FIN [] ∧ classify "JUM  03".toList = .instr .JUM ["03".toList] ∧
    classify "LOM 3 4 ".toList = .instr .LOM ["3".toList, "4".toList] ∧ classify " # c".toList = .comment " # c".toList ∧
    classify "7  a".toList = .dataJunk "7  a".toList ∧ classify "HALT ".toList = .bad "HALT ".toList ∧
    classify (canonical " l:".toList) = .label "l".toList := by decide

theorem witness_CanonicalTextIsInvisible :
    sample.mem.wf = true ∧ sample.canonicalView.mem.read 31 = "7".toList ∧ sample.mem.read 31 = "7 ".toList := by decide

theorem witness_TableWordsRunNext :
    sample.mem.wf = true ∧ decodeTableWord 4 14 = some (.fin none) ∧ decodeTableWord 4 0 = some (.lom 0) ∧ 14 < 15 := by decide

theorem witness_StepRunsTheDecodedInstruction :
    sample.engine = .running ∧ 0 ≤ sample.pc ∧ sample.pc < Config.memSize ∧
    decodeFetched (sample.mem.read sample.pc.toNat) = .run (.add 31) ∧
    (part (fun t => (t.acc, t.ir)) (step sample) = some (9, "ADD 31".toList)) ∧
    decodeFetched (({ at0 [(31, "INR")] with pc := 31 } : State).mem.read 31) = .run (.inr none) := by decide

theorem witness_StepOfAnEndedEngineIsNoOp :
    ({ sample with engine := .finished }).Ended ∧
    ({ sample with engine := .faulted, fault := some ⟨.invalidOpcode, 0, []⟩ }).Ended := by decide

theorem witness_UnexecutableCellFaults :
    ({ sample with pc := -1 }).pc < 0 ∧ (Config.memSize : Int) ≤ ({ sample with pc := 32 }).pc ∧
    validAddr 5 = true ∧ classify (sample.mem.read 5) = .bad (sample.mem.read 5) ∧
    validAddr 12 = true ∧ classify (sample.mem.read 12) = .empty ∧ sample.engine = .running := by decide

theorem witness_LabelAndCommentCellsAreSkipped :
    ({ sample with pc := 3 }).engine = .running ∧ validAddr 3 = true ∧ validAddr 4 = true ∧
    classify (sample.mem.read 3) = .label "l".toList ∧ classify (sample.mem.read 4) = .comment (sample.mem.read 4) ∧
    tokens (sample.mem.read 3) = ["l".toList ++ [':']] ∧ "l".toList ≠ [] ∧ "l".toList.head? ≠ some '#' ∧
    tokens (sample.mem.read 4) = ['#' :: [], "c".toList] := by decide

theorem witness_DataCellsAreSkipped :
    ({ sample with pc := 31 }).engine = .running ∧ validAddr 31 = true ∧
    tokens (sample.mem.read 31) = "7".toList :: [] ∧ isInt "7".toList = true := by decide

theorem witness_DecodeFailureFaultsTheStep :
    ({ sample with pc := 1 }).engine = .running ∧ validAddr 1 = true ∧
    classify ({ sample with pc := 1 } : State).currentLine = .instr .LOM ["x".toList] ∧
    (decodeLiteral sample.sym .LOM ["x".toList] = .error .invalidOperand) ∧
    classify ({ sample with pc := 2 } : State).currentLine = .instr .JUM ["gone".toList] ∧
    (decodeLiteral sample.sym .JUM ["gone".toList] = .error .unresolvedLabel) ∧
    classify sample.currentLine = .instr .ADD ["31".toList] ∧
    (decodeLiteral sample.sym .ADD ["31".toList] = .ok ⟨2, some 31⟩) := ⟨rfl, rfl, rfl, rfl, rfl, rfl, rfl, rfl⟩

theorem witness_FetchWritesIr :
    ∃ t, step { sample with pc := 31 } = .next t ∧ validAddr 31 = true ∧
      ∀ a, ¬ ({ sample with pc := 31 } : State).Fetches (.sto a) :=
  ⟨_, rfl, rfl, fun a h => absurd h.2.2 (by simp [show decodeFetched ({ sample with pc := 31 } : State).currentLine = .skip from rfl])⟩

/-- The hypotheses of the rules of the seven cell readers (`ReadsCell`, `ReadFaults`, `NeedsAddress`) and of `STO`: the first and last
cell, the addresses next to them, a cell with no number, an operand that decodes and one that does not. -/
theorem witness_LomLoadsThroughDr :
    sample.CellHolds 31 7 ∧ ({ sample with mem := cells [(0, "-4")] } : State).CellHolds 0 (-4) ∧
    validAddr 32 = false ∧ validAddr (-1) = false ∧
    (validAddr 0 = true ∧ dataValue (sample.mem.read 0) = none) ∧
    decodeInstr .LOM ["03".toList] = .ok (.lom 3) ∧ decodeInstr .LOM [] = .error .invalidOperand :=
  ⟨by decide, by decide, rfl, rfl, by decide, rfl, rfl⟩

theorem witness_StoStoresDecimalText :
    sample.mem.wf = true ∧ validAddr 0 = true ∧ validAddr 31 = true ∧ validAddr 32 = false ∧ validAddr (-1) = false ∧
    decodeInstr .STO ["x".toList] = .error .invalidOperand := ⟨by decide, rfl, rfl, rfl, rfl, rfl⟩

theorem witness_AddAndSubAreExact :
    sample.CellHolds 31 7 ∧ validAddr 32 = false ∧ validAddr (-1) = false ∧ dataValue (sample.mem.read 0) = none ∧
    decodeInstr .ADD [[], []] = .error .invalidOperand ∧ decodeInstr .SUB ["-1".toList] = .ok (.sub (-1)) :=
  ⟨by decide, rfl, rfl, by decide, rfl, rfl⟩

/-- The multipliers 1 and 0, on the two sides of the hang. -/
theorem witness_MulAddsDrRepeatedly :
    sample.CellHolds 30 1 ∧ (1 : Int) ≤ 1 ∧ sample.CellHolds 29 0 ∧ (0 : Int) ≤ 0 ∧ validAddr 32 = false ∧
    dataValue (sample.mem.read 0) = none ∧ decodeInstr .MUL [] = .error .invalidOperand :=
  ⟨by decide, by decide, by decide, by decide, rfl, by decide, rfl⟩

theorem witness_AndOrXorCombineWithTheCell :
    sample.CellHolds 31 7 ∧ validAddr 32 = false ∧ validAddr (-1) = false ∧ dataValue (sample.mem.read 0) = none ∧
    decodeInstr .AND [] = .error .invalidOperand ∧ decodeInstr .OR [] = .error .invalidOperand ∧
    decodeInstr .XOR [] = .error .invalidOperand := ⟨by decide, rfl, rfl, by decide, rfl, rfl, rfl⟩

theorem witness_InrAndNotWorkOnAcc :
    decodeInstr .INR ["x".toList] = .error .invalidOperand ∧ decodeInstr .NOT [[], []] = .error .invalidOperand ∧
    decodeInstr .INR ["4".toList] = .ok (.inr (some 4)) := ⟨rfl, rfl, rfl⟩

theorem witness_InpCopiesInpr :
    sample.inpr = none ∧ ({ sample with inpr := some 0 }).inpr = some 0 ∧ decodeInstr .INP ["x".toList] = .error .invalidOperand :=
  ⟨rfl, rfl, rfl⟩

theorem witness_OutEmitsAndCallsTheHook : decodeInstr .OUT ["x".toList] = .error .invalidOperand := rfl

/-- Targets at both ends of memory, on both sides of each end, and a label that is in the table and one that is not. -/
theorem witness_JumJumps :
    [Target.addr 0, .addr 31, .addr 32, .addr (-1), .label "l".toList, .label "gone".toList].map (resolveTarget sample.sym) =
      [some 0, some 31, some 32, some (-1), some 3, none] ∧
    [(0 : Int), 31, 32, -1, 3].map validAddr = [true, true, false, false, true] ∧
    decodeInstr .JUM [] = .error .invalidOperand := ⟨rfl, rfl, rfl⟩

theorem witness_JuzJumpsOnZero :
    resolveTarget sample.sym (.label "l".toList) = some 3 ∧ validAddr 3 = true ∧ validAddr 31 = true ∧ validAddr 32 = false ∧
    resolveTarget sample.sym (.label "gone".toList) = none ∧ decodeInstr .JUZ [[], []] = .error .invalidOperand :=
  ⟨rfl, rfl, rfl, rfl, rfl, rfl⟩

theorem witness_FinFinishes : decodeInstr .FIN ["x".toList] = .error .invalidOperand := rfl

/-- A step that changes `ACC`, `DR` (`LOM`), `CTR` (`MUL`) or `OUTR` (`OUT`). -/
theorem witness_AccHasTenWriters : ∃ t, step sample = .next t ∧ t.acc ≠ sample.acc := ⟨_, rfl, by decide⟩

theorem witness_ArHoldsTheLastOperand :
    sample.Fetches (.add 31) ∧ operandValue sample.sym (.add 31) = .ok (some 31) ∧ (∃ t, step sample = .next t) ∧
    (∃ t, step { sample with pc := 11 } = .next t) ∧
    decodeFetched ({ sample with pc := 11 } : State).currentLine = .run (.inr none) ∧
    operandValue sample.sym (.inr none) = .ok none := ⟨by decide, rfl, ⟨_, rfl⟩, ⟨_, rfl⟩, by decide, rfl⟩

theorem witness_DrIsWrittenByLomAlone :
    (∃ t, step { sample with pc := 10 } = .next t ∧ t.dr ≠ sample.dr) ∧ sample.CellHolds 31 7 ∧ sample.CellHolds 30 1 ∧
    (∃ t, exec (.mul 30) sample = .next t) ∧ ∃ t, exec (.xor 31) sample = .next t :=
  ⟨⟨_, rfl, by decide⟩, by decide, by decide, ⟨_, rfl⟩, ⟨_, rfl⟩⟩

theorem witness_CtrBelongsToMul :
    (∃ t, step { at0 [(0, "MUL 1"), (1, "1")] with ctr := 5 } = .next t ∧ t.ctr ≠ 5) ∧ sample.CellHolds 30 1 ∧
    (∃ t, exec (.mul 30) sample = .next t) ∧ sample.hook = false ∧ (Instr.out none).mnemonic ≠ .MUL ∧
    (∃ t, exec (.out none) sample = .next t) ∧
    (Instr.add 31).mnemonic ≠ .MUL ∧ (Instr.add 31).mnemonic ≠ .OUT ∧ ∃ t, exec (.add 31) { sample with hook := true } = .next t :=
  ⟨⟨_, rfl, by decide⟩, by decide, ⟨_, rfl⟩, rfl, by decide, ⟨_, rfl⟩, by decide, by decide, ⟨_, rfl⟩⟩

theorem witness_StepsLeaveInprSymAndHook : ∃ t, step sample = .next t := ⟨_, rfl⟩

theorem witness_OutrIsWrittenByOutAlone :
    (∃ t, step { sample with pc := 9 } = .next t ∧ t.outr ≠ sample.outr) ∧ ∃ t, exec (.lom 31) sample = .next t :=
  ⟨⟨_, rfl, by decide⟩, ⟨_, rfl⟩⟩

theorem witness_IrIsReadByNothing : sample.engine = .running ∧ validAddr sample.pc = true := by decide

theorem witness_OnlyStoWritesMemory :
    sample.mem.wf = true ∧ (∃ t, step { sample with pc := 6 } = .next t ∧ t.mem.read 31 ≠ sample.mem.read 31) ∧
    ∃ s, loaded ["FIN"] = .ok s := ⟨by decide, ⟨_, rfl, by decide⟩, ⟨_, rfl⟩⟩

/-- The last cell: `PC` becomes `MEMSIZE`. -/
theorem witness_HandlersSequencePc :
    sample.engine = .running ∧ (∃ t, exec (.jum (.label "l".toList)) sample = .next t ∧ t.engine ≠ .faulted) ∧
    (∃ t, exec (.juz (.addr 31)) sample = .next t ∧ t.engine ≠ .faulted) ∧
    (∃ t, exec (.fin none) sample = .next t ∧ t.engine ≠ .faulted) ∧
    (∃ t, exec (.out none) { sample with hook := true } = .next t ∧ t.engine ≠ .faulted) ∧
    ∃ t, exec (.inr none) { sample with pc := 31 } = .next t ∧ t.engine = .running ∧ t.pc = Config.memSize :=
  ⟨rfl, ⟨_, rfl, by decide⟩, ⟨_, rfl, by decide⟩, ⟨_, rfl, by decide⟩, ⟨_, rfl, by decide⟩, ⟨_, rfl, rfl, rfl⟩⟩

theorem witness_FrameOfCellReaders :
    Instr.lom 31 ∈ cellReaders 31 ∧ (∃ t, exec (.lom 31) sample = .next t) ∧ Instr.mul 30 ∈ cellReaders 30 ∧
    ∃ t, exec (.mul 30) sample = .next t := ⟨by decide, ⟨_, rfl⟩, by decide, ⟨_, rfl⟩⟩

theorem witness_FrameOfStore : (∃ t, exec (.sto 31) sample = .next t) ∧ ∃ t, exec (.sto 32) sample = .next t :=
  ⟨⟨_, rfl⟩, ⟨_, rfl⟩⟩

theorem witness_FrameOfRegisterForms :
    (∃ t, exec (.not none) sample = .next t) ∧ operandValue sample.sym (.out (some 5)) = .ok (some 5) ∧
    (∃ t, exec (.out (some 5)) sample = .next t) ∧ (∃ t, exec (.fin none) sample = .next t) ∧
    ∃ t, exec (.inp none) sample = .next t := ⟨⟨_, rfl⟩, rfl, ⟨_, rfl⟩, ⟨_, rfl⟩, ⟨_, rfl⟩⟩

/-- A faulting step of each cause: `PC` outside memory, a bad line, an unusable operand, an undefined label, a read of a cell with no
number, `INP` with `INPR` unset. -/
theorem witness_FaultingStepIsPrecise :
    [{ sample with pc := 32 }, { sample with pc := 5 }, { sample with pc := 1 }, { sample with pc := 2 },
      at0 [(0, "ADD 0")], at0 [(0, "INP 4")]].map (fun s => (faultOf (step s)).map fun p => (p.1, p.2.map FaultRecord.cause)) =
      [Cause.invalidAddress, .invalidOpcode, .invalidOperand, .unresolvedLabel, .nonNumericCell, .unsetInput].map
        fun c => some (.faulted, some c) := by decide

theorem witness_OnlyMulHangs :
    ({ sample with pc := 7 } : State).Fetches (.mul 29) ∧ ({ sample with pc := 7 } : State).CellHolds 29 0 ∧
    hangs (step { sample with pc := 7 }) = true := by decide

theorem witness_OnlyFinFinishes :
    sample.engine = .running ∧ ({ sample with pc := 8 } : State).Fetches (.fin none) ∧
    part State.engine (step { sample with pc := 8 }) = some .finished ∧ part State.engine (step sample) = some .running := by decide

theorem witness_RunsComposeAndStay :
    sample.engine = .running ∧ part State.acc (step sample) = some 9 ∧ hangs (step { sample with pc := 7 }) = true ∧
    part State.engine (runFor 1 none { sample with pc := 8 }) = some .finished ∧
    part State.engine (runFor 2 none (at0 [(0, "INR")])) = some .faulted ∧
    hangs (runFor 1 none { sample with pc := 7 }) = true := by decide

/-- A run that goes on, one that has ended `Faulted`, one that hangs; a request at the first and the second step. -/
theorem witness_ForceFinishEndsARunBetweenSteps :
    part State.engine (runFor 1 none (at0 [(0, "JUM 0")])) = some .running ∧
    part State.engine (runFor 1 (some 0) (at0 [(0, "JUM 0")])) = some .finished ∧
    part State.engine (runFor 1 none (at0 [(0, "JUM 32")])) = some .faulted ∧
    hangs (runFor 1 none { sample with pc := 7 }) = true ∧ 1 ≤ 1 ∧
    part State.engine (runFor 1 (some 1) (at0 [(0, "JUM 0")])) = some .running := by decide

theorem sample_inv : sample.Inv :=
  ⟨by decide, by decide, by decide, by decide, rfl, by decide, by decide, by decide, by decide⟩

theorem witness_StepKeepsTheInvariant : sample.Inv ∧ ∃ t, step sample = .next t := ⟨sample_inv, ⟨_, rfl⟩⟩

theorem witness_LoadMeetsTheInvariant : ∃ s, loaded ["a:", "JUM a"] = .ok s := ⟨_, rfl⟩

theorem witness_LoadedLabelsAlwaysResolve :
    (∃ s, loaded ["a:", "JUM a"] = .ok s) ∧
    (at0 [(0, "JUM 32")]).LabelsResolve ∧ ∃ t, step (at0 [(0, "JUM 32")]) = .next t ∧ t.engine = .faulted := by
  refine ⟨⟨_, rfl⟩, fun c hc t ht => ?_, _, rfl, rfl⟩
  obtain rfl : c = (0, "JUM 32".toList) := by simpa [at0, cells] using hc
  have hn : neededLabel "JUM 32".toList = none := rfl
  rw [hn] at ht
  cases ht

theorem witness_ProgramTooLargeIsRejected :
    Config.memSize < (List.replicate 33 ([] : Line)).length ∧ ¬ Config.memSize < (List.replicate 32 ([] : Line)).length := by decide

theorem witness_LoadAcceptsExactlyTheValidPrograms :
    (∃ s, loaded ["a:", "A:", "JUM A"] = .ok s) ∧ classify "a:".toList = .label "a".toList ∧
    classify "JUM A".toList = .instr .JUM ["A".toList] ∧ isInt "A".toList = false := ⟨⟨_, rfl⟩, by decide, by decide, by decide⟩

theorem witness_LoadBuildsTheLaunchState :
    ∃ s, load (["a:", "FIN"].map String.toList) { acc := -3, hook := true } = .ok s ∧ s.acc = -3 ∧ s.mem.read 1 = "FIN".toList :=
  ⟨_, rfl, rfl, rfl⟩

theorem witness_HostMovesBetweenSteps :
    sample.engine = .running ∧ ({ sample with engine := .finished }).Ended ∧ ({ sample with engine := .faulted }).Ended ∧
    (∃ s, loaded ["FIN"] = .ok s) ∧ ∃ e, loaded ["a:", "a:"] = .error e := ⟨rfl, by decide, by decide, ⟨_, rfl⟩, ⟨_, rfl⟩⟩

/-- The five reports: a step of each kind. -/
theorem test_step_reports :
    [sample, { sample with pc := 8 }, { sample with pc := 32 }, { sample with engine := .finished }, { sample with engine := .faulted }].map
      (fun s => part (stepReport s) (step s)) =
      [some .stillRunning, some .becameFinished, some (.becameFaulted (some ⟨.invalidAddress, 32, []⟩)), some .alreadyFinished,
        some .alreadyFaulted] := by decide

theorem witness_HostStepsRunsAndReads :
    (∃ t, step sample = .next t ∧ t.engine = .running) ∧ (∃ t, step { sample with pc := 8 } = .next t ∧ t.engine = .finished) ∧
    (∃ t, step { sample with pc := 32 } = .next t ∧ t.engine = .faulted) ∧
    (∃ t, step { sample with engine := .finished } = .next t) ∧ (∃ t, step { sample with engine := .faulted } = .next t) ∧
    (∃ t, runFor 2 none sample = .next t) ∧ hangs (step { sample with pc := 7 }) = true ∧
    hangs (runFor 1 none { sample with pc := 7 }) = true ∧
    (∃ t, exec (.out none) { sample with hook := true } = .next t) ∧
    ∀ lines init, HostOp.step ≠ .load lines init ∧ HostOp.step ≠ .reset lines init :=
  ⟨⟨_, rfl, rfl⟩, ⟨_, rfl, rfl⟩, ⟨_, rfl, rfl⟩, ⟨_, rfl⟩, ⟨_, rfl⟩, ⟨_, rfl⟩, by decide, by decide, ⟨_, rfl⟩,
    fun _ _ => ⟨by simp, by simp⟩⟩

theorem witness_StoreLoadAndOutputRoundTrip : validAddr 31 = true ∧ sample.mem.wf = true ∧ sample.CellHolds 31 7 := by decide

theorem witness_LomThenMulMultiplies :
    sample.CellHolds 31 7 ∧ sample.CellHolds 30 1 ∧ (1 : Int) ≤ 1 ∧
    ({ sample with acc := 7, dr := 7 } : State).CellHolds 31 7 ∧
    part (fun t => (t.acc, t.dr)) (step { sample with pc := 31, acc := 7, dr := 7 }) = some (7, 7) := by decide

end Sys2Proof.Tests
end

section
/-! The registers with few users: which steps write `DR`, `CTR` and `OUTR`, and which instructions do the same whatever the
three hold (10_state.md R15, R16, R18). -/

namespace Sys2Proof.Machine

variable {s t : State} {i : Instr}

/-! ## What a step writes -/

/-- Only a decoded instruction writes what lies outside `PC`, `IR`, `STATE` and `FAULT`: no skip and no fault of the step cycle
does (40_step_cycle.md R90 to R96). -/
theorem effect_of_step_changes {α : Type} {f : State → α}
    (hf : ∀ (s : State) p l e r, f { s with pc := p, ir := l, engine := e, fault := r } = f s)
    (h : step s = .next t) (hne : f t ≠ f s) : ∃ i, s.Fetches i ∧ Effect s.fetch i t := by
  rcases step_cases s with ⟨-, he⟩ | ⟨-, -, he⟩ | ⟨-, -, -, he⟩ | ⟨e, -, -, -, he⟩ | ⟨i, hi, he⟩
  · rw [he] at h; cases h; exact absurd rfl hne
  · rw [he] at h; cases h; exact absurd (hf s _ _ _ _) hne
  · rw [he] at h; cases h; exact absurd (hf s _ _ _ _) hne
  · rw [he] at h; cases h; exact absurd (hf s _ _ _ _) hne
  · exact ⟨i, hi, effect_of_exec (he ▸ h)⟩

theorem Effect.eq_lom_of_dr_ne (h : Effect s i t) (hne : t.dr ≠ s.dr) :
    ∃ a, i = .lom a ∧ s.CellHolds a t.dr ∧ t.acc = t.dr := by
  cases h with
  | lom h => exact ⟨_, rfl, h, rfl⟩
  | _ => exact absurd (by simp) hne

theorem Effect.eq_mul_of_ctr_ne (h : Effect s i t) (hne : t.ctr ≠ s.ctr) : ∃ a, i = .mul a := by
  cases h with
  | mul => exact ⟨_, rfl⟩
  | _ => exact absurd (by simp) hne

theorem Effect.eq_out_of_outr_ne (h : Effect s i t) (hne : t.outr ≠ s.outr) : ∃ o, i = .out o ∧ t.outr = some s.acc := by
  cases h with
  | out => exact ⟨_, rfl, by simp⟩
  | _ => exact absurd (by simp) hne

/-- A `MUL` that completes, as one next state (42_arithmetic.md R122). -/
theorem eq_of_exec_mul {a m : Int} (hm : s.CellHolds a m) (h : exec (.mul a) s = .next t) :
    t = (((s.setAr a).setCtr 0).setAcc (s.acc + (m - 1) * s.dr)).advance := by
  rw [exec_mul, withCell_holds _ hm] at h
  split at h
  · cases h; rfl
  · cases h

/-! ## What an instruction does not read -/

/-- A register with few users, and a value for it. -/
inductive RareReg where
  | dr (d : Int)
  | ctr (c : Int)
  | outr (x : Option Int)

/-- The mnemonics that write the register, or whose outcome may depend on it: `OUT` writes `OUTR`, and through the hook that it
calls the host reads `DR` and `CTR` too (50_host_interface.md R168). -/
def RareReg.users : RareReg → List Mnemonic
  | .dr _ => [.LOM, .MUL, .OUT]
  | .ctr _ => [.MUL, .OUT]
  | .outr _ => [.OUT]

/-- The state with the value in the register. -/
def State.put (s : State) : RareReg → State
  | .dr d => { s with dr := d }
  | .ctr c => { s with ctr := c }
  | .outr x => { s with outr := x }

/-- An instruction that does not use a register has, from a state with another value in it, the same effect, and leaves that
value in it. -/
theorem Effect.put {r : RareReg} (h : Effect s i t) (hr : i.mnemonic ∉ r.users) : Effect (s.put r) i (t.put r) := by
  cases h with
  | lom h =>
    cases r with
    | dr d => simp [RareReg.users, Instr.mnemonic] at hr
    | ctr c => exact .lom h
    | outr x => exact .lom h
  | mul h hm =>
    cases r with
    | dr d => simp [RareReg.users, Instr.mnemonic] at hr
    | ctr c => simp [RareReg.users, Instr.mnemonic] at hr
    | outr x => exact .mul h hm
  | out => cases r <;> simp [RareReg.users, Instr.mnemonic] at hr
  | sto h => cases r <;> exact .sto h
  | add h => cases r <;> exact .add h
  | sub h => cases r <;> exact .sub h
  | and h => cases r <;> exact .and h
  | or h => cases r <;> exact .or h
  | xor h => cases r <;> exact .xor h
  | @not o => cases o <;> cases r <;> exact .not
  | @inr o => cases o <;> cases r <;> exact .inr
  | @inp o v h => cases o <;> cases r <;> exact .inp h
  | jum h hv => cases r <;> exact .jum h hv
  | juzTaken h hv hz => cases r <;> exact .juzTaken h hv hz
  | juzNotTaken h hv hz => cases r <;> exact .juzNotTaken h hv hz
  | @fin o => cases o <;> cases r <;> exact .fin
  | badAddress hi h => cases r <;> exact .badAddress hi h
  | noNumber hi h hd => cases r <;> exact .noNumber hi h hd
  | badTarget hi h hv => cases r <;> exact .badTarget hi h hv
  | unresolved hi h => cases r <;> exact .unresolved hi h
  | @unset o h => cases o <;> cases r <;> exact .unset h

theorem exec_put {r : RareReg} (hr : i.mnemonic ∉ r.users) (h : exec i s = .next t) : exec i (s.put r) = .next (t.put r) :=
  exec_of_effect ((effect_of_exec h).put hr)

theorem mnemonic_eq_out : i.mnemonic = .OUT ↔ ∃ o, i = .out o := by
  cases i <;> simp [Instr.mnemonic]

/-- `OUT` without a hook (44_io.md R141). -/
theorem exec_out_hook_off (o : Option Int) (hk : s.hook = false) :
    exec (.out o) s = .next (s.withSurplus o).emit.advance := by
  simp [exec_out, State.callHook, hk]

/-- Where no hook is called, `OUT` does not read `CTR`. -/
theorem exec_out_ctr {o : Option Int} (c : Int) (hk : s.hook = false) (h : exec (.out o) s = .next t) :
    exec (.out o) { s with ctr := c } = .next { t with ctr := c } := by
  rw [exec_out_hook_off o hk] at h
  rw [exec_out_hook_off (s := { s with ctr := c }) o hk]
  cases h
  cases o <;> rfl

/-- `OUT` overwrites `OUTR` before the hook is called, so nothing sees its old value. -/
theorem exec_out_outr (o : Option Int) (x : Option Int) : exec (.out o) { s with outr := x } = exec (.out o) s := by
  cases o <;> rfl

end Sys2Proof.Machine

open Sys2Proof Sys2Proof.Machine

/-- Settles O32: `Effect` leaves `LOM` as the one writer, and the five combining instructions are no users of `DR`. -/
theorem drIsWrittenByLomAlone : Obligations.DrIsWrittenByLomAlone := by
  refine ⟨fun s t h hne => ?_, fun s a v hv => ?_, fun s t a m hm h => ?_, fun i a s t d hi h => ?_⟩
  · obtain ⟨i, hi, he⟩ := effect_of_step_changes (f := State.dr) (fun _ _ _ _ _ => rfl) h hne
    obtain ⟨a, rfl, hcell, hacc⟩ := he.eq_lom_of_dr_ne hne
    exact ⟨a, hi, hcell, hacc⟩
  · exact ⟨_, exec_of_effect (.lom hv), rfl, rfl⟩
  · rw [eq_of_exec_mul hm h]; rfl
  · have hr : i.mnemonic ∉ (RareReg.dr d).users := by
      simp only [List.mem_cons, List.not_mem_nil, or_false] at hi
      rcases hi with rfl | rfl | rfl | rfl | rfl <;> simp [RareReg.users, Instr.mnemonic]
    refine ⟨by_contra fun hne => ?_, exec_put hr h⟩
    obtain ⟨b, rfl, -, -⟩ := (effect_of_exec h).eq_lom_of_dr_ne hne
    exact hr (.head _)

/-- Settles O33: `Effect` leaves `MUL` as the one writer, and among the others only an `OUT` with a hook is a user of `CTR`. -/
theorem ctrBelongsToMul : Obligations.CtrBelongsToMul := by
  refine ⟨fun s t h hne => ?_, fun s t a m hm h => ?_, fun i s t c hmul hout h => ?_⟩
  · obtain ⟨i, hi, he⟩ := effect_of_step_changes (f := State.ctr) (fun _ _ _ _ _ => rfl) h hne
    obtain ⟨a, rfl⟩ := he.eq_mul_of_ctr_ne hne
    exact ⟨a, hi⟩
  · rw [eq_of_exec_mul hm h]; rfl
  · by_cases hm : i.mnemonic = .OUT
    · obtain ⟨o, rfl⟩ := mnemonic_eq_out.1 hm
      exact exec_out_ctr c (hout hm) h
    · exact exec_put (r := .ctr c) (by simp [RareReg.users, hmul, hm]) h

/-- Settles O35: `Effect` leaves `OUT` as the one writer; `OUT` overwrites what `OUTR` held, and no other instruction uses it. -/
theorem outrIsWrittenByOutAlone : Obligations.OutrIsWrittenByOutAlone := by
  refine ⟨fun s t h hne => ?_, fun i s t x h => ⟨?_, rfl⟩⟩
  · obtain ⟨i, hi, he⟩ := effect_of_step_changes (f := State.outr) (fun _ _ _ _ _ => rfl) h hne
    obtain ⟨o, rfl, ho⟩ := he.eq_out_of_outr_ne hne
    exact ⟨o, hi, ho⟩
  · by_cases hm : i.mnemonic = .OUT
    · obtain ⟨o, rfl⟩ := mnemonic_eq_out.1 hm
      rw [if_pos hm, exec_out_outr, h]
    · rw [if_neg hm]
      exact exec_put (r := .outr x) (by simp [RareReg.users, hm]) h

end

section
/-! `IR`, memory and `AR` along a step: the fetch writes `IR` and no cell (40_step_cycle.md R92), and `AR` takes the operand of
the decoded instruction (R97). -/

namespace Sys2Proof.Machine

variable {s t : State} {i : Instr}

/-! ## `IR` and memory -/

/-- `IR` is written by the fetch alone: each way an instruction can go leaves it as it is. -/
theorem Effect.ir_eq (h : Effect s i t) : t.ir = s.ir := by
  cases h <;> simp

theorem Effect.eq_sto_of_mem_ne (h : Effect s i t) (hne : t.mem ≠ s.mem) : ∃ a, i = .sto a := by
  cases h with
  | sto => exact ⟨_, rfl⟩
  | _ => exact absurd (by simp) hne

/-- A step past the entry check leaves the fetched line in `IR`, whether the line is skipped, rejected or executed. -/
theorem step_ir_eq_currentLine (hr : s.engine = .running) (hv : validAddr s.pc = true) (h : step s = .next t) :
    t.ir = s.currentLine := by
  rcases step_cases s with ⟨hne, -⟩ | ⟨-, hf, -⟩ | ⟨-, -, -, he⟩ | ⟨e, -, -, -, he⟩ | ⟨i, -, he⟩
  · exact absurd hr hne
  · exact absurd hv (by simp [hf])
  · rw [he] at h; cases h; simp
  · rw [he] at h; cases h; simp
  · have heff : Effect s.fetch i t := effect_of_exec (he ▸ h)
    rw [heff.ir_eq, State.fetch_ir]

/-! ## `AR` -/

/-- The resolved operand of an instruction, where it has one and its label, if it is one, is known (30_encoding.md R71, R72). -/
def carriedOperand (sym : SymbolTable) (i : Instr) : Option Int := (operandValue sym i).toOption.join

theorem carriedOperand_eq_some {sym : SymbolTable} {a : Int} :
    carriedOperand sym i = some a ↔ operandValue sym i = .ok (some a) := by
  unfold carriedOperand
  rcases operandValue sym i with e | _ | b <;> simp [Except.toOption]

theorem carriedOperand_of_address {sym : SymbolTable} {a : Int} (hi : i = .sto a ∨ i ∈ cellReaders a) :
    carriedOperand sym i = some a := by
  rw [carriedOperand_eq_some]
  rcases hi with rfl | hi
  · rfl
  · rcases mem_cellReaders hi with rfl | rfl | rfl | rfl | rfl | rfl | rfl <;> rfl

theorem carriedOperand_of_jump {sym : SymbolTable} {x : Target} (hi : i = .jum x ∨ i = .juz x) :
    carriedOperand sym i = resolveTarget sym x := by
  rcases hi with rfl | rfl <;> cases h : resolveTarget sym x <;>
    simp [carriedOperand, operandValue, h, Except.toOption]

/-- `AR` takes the operand the instruction carries, whatever the opcode, faulting or not (40_step_cycle.md R97). -/
theorem Effect.ar_eq (h : Effect s i t) : t.ar = (carriedOperand s.sym i).getD s.ar := by
  cases h with
  | badAddress hi => simp [carriedOperand_of_address hi]
  | noNumber hi => simp [carriedOperand_of_address (.inr hi)]
  | badTarget hi h | unresolved hi h => simp [carriedOperand_of_jump hi, h]
  | jum h => simp [carriedOperand_of_jump (.inl rfl), h]
  | juzTaken h | juzNotTaken h => simp [carriedOperand_of_jump (.inr rfl), h]
  | _ => simp [carriedOperand, operandValue, Except.toOption]

end Sys2Proof.Machine

open Sys2Proof Sys2Proof.Machine

/-- Settles O17: every class of line leaves the fetched line in `IR`, and only the `STO` among the effects writes a cell. -/
theorem fetchWritesIr : Obligations.FetchWritesIr := by
  refine fun s t hr hv h => ⟨?_, fun hsto => by_contra fun hne => ?_⟩
  · rw [step_ir_eq_currentLine hr hv h]
    exact lineAt_valid hv
  · obtain ⟨i, hi, he⟩ := effect_of_step_changes (f := State.mem) (fun _ _ _ _ _ => rfl) h hne
    obtain ⟨a, rfl⟩ := he.eq_sto_of_mem_ne hne
    exact hsto a hi

/-- Settles O31: every effect leaves in `AR` the operand its instruction carries, and only a decoded instruction writes `AR`. -/
theorem arHoldsTheLastOperand : Obligations.ArHoldsTheLastOperand := by
  refine fun s t h => ⟨fun i a hi ha => ?_, fun hno => by_contra fun hne => ?_⟩
  · have he : Effect s.fetch i t := effect_of_exec (step_run hi ▸ h)
    rw [he.ar_eq, State.fetch_sym, carriedOperand_eq_some.2 ha, Option.getD_some]
  · obtain ⟨i, hi, he⟩ := effect_of_step_changes (f := State.ar) (fun _ _ _ _ _ => rfl) h hne
    have har := he.ar_eq
    cases hc : carriedOperand s.sym i with
    | none => exact hne (by simpa [hc] using har)
    | some a => exact hno i a hi (carriedOperand_eq_some.1 hc)

end

section
/-! The decoder and the encoder: an instruction's line reads back, a read instruction is well formed, the literal decoder of
30_encoding.md R72 is the engine's decoder and the operand's lookup, and a table word is the instruction it numbers. -/

namespace Sys2Proof

open Machine

variable {i : Instr} {m : Mnemonic} {args : List Token} {sym : SymbolTable}

/-! ## The canonical line reads back -/

/-- The canonical line of a well-formed instruction is a line of its mnemonic and operand tokens (30_encoding.md R78). -/
theorem classify_encode (h : i.wf = true) : classify (encode i) = .instr i.mnemonic (argTokens i) := by
  cases i with
  | lom a => exact Laws.EncodeClass.lom a h
  | sto a => exact Laws.EncodeClass.sto a h
  | add a => exact Laws.EncodeClass.add a h
  | sub a => exact Laws.EncodeClass.sub a h
  | mul a => exact Laws.EncodeClass.mul a h
  | and a => exact Laws.EncodeClass.and a h
  | or a => exact Laws.EncodeClass.or a h
  | xor a => exact Laws.EncodeClass.xor a h
  | not o => exact Laws.EncodeClass.not o h
  | inr o => exact Laws.EncodeClass.inr o h
  | inp o => exact Laws.EncodeClass.inp o h
  | out o => exact Laws.EncodeClass.out o h
  | jum x => exact Laws.EncodeClass.jum x h
  | juz x => exact Laws.EncodeClass.juz x h
  | fin o => exact Laws.EncodeClass.fin o h

theorem decodeAddr_dec (mk : Int → Instr) (a : Int) : decodeAddr [dec a] mk = .ok (mk a) := by
  simp [decodeAddr]

theorem decodeSurplus_dec (mk : Option Int → Instr) (o : Option Int) : decodeSurplus (o.map dec).toList mk = .ok (mk o) := by
  cases o <;> simp [decodeSurplus]

theorem decodeTarget_targetToken (mk : Target → Instr) {x : Target} (h : x.wf = true) :
    decodeTarget [targetToken x] mk = .ok (mk x) := by
  cases x with
  | addr a => simp [decodeTarget, targetToken]
  | label n => simp [decodeTarget, targetToken, wfName_not_int h]

/-- The operand tokens of a well-formed instruction decode to it, in each of the three formats (30_encoding.md R72). -/
theorem decodeInstr_argTokens (h : i.wf = true) : decodeInstr i.mnemonic (argTokens i) = .ok i := by
  cases i with
  | lom | sto | add | sub | mul | and | or | xor => exact decodeAddr_dec _ _
  | not | inr | inp | out | fin => exact decodeSurplus_dec _ _
  | jum | juz => exact decodeTarget_targetToken _ h

/-! ## What is read is well formed -/

theorem wfName_of_mem_tokens {line : Line} {n : Token} (hl : isLine line = true) (hn : n ∈ tokens line)
    (hi : isInt n = false) : wfName n = true := by
  obtain ⟨hne, hns⟩ := tokens_all line n hn
  have hline : isLine n = true := List.all_eq_true.2 fun c hc => List.all_eq_true.1 hl c (tokens_chars line n hn c hc)
  simpa [wfName, hne, hline, hi] using hns

/-- The target a token of a line decodes to is well formed: a token that is no integer can be a name. -/
theorem target_wf_of_mem_tokens {line : Line} {n : Token} (hl : isLine line = true) (hn : n ∈ tokens line) :
    (if isInt n = true then Target.addr (intOf n) else .label n).wf = true := by
  split
  · rfl
  · next hi => exact wfName_of_mem_tokens hl hn (by simpa using hi)

/-- Only a jump can carry an operand that is no number, and its one operand token is what it carries. -/
theorem decodeInstr_wf (h : decodeInstr m args = .ok i)
    (hx : ∀ n ∈ args, (if isInt n = true then Target.addr (intOf n) else .label n).wf = true) : i.wf = true := by
  obtain rfl := decodeInstr_mnemonic h
  cases i with
  | jum x =>
    obtain ⟨n, rfl, e⟩ := decodeTarget_ok.1 h
    rw [e]
    exact hx n (List.mem_singleton.2 rfl)
  | juz x =>
    obtain ⟨n, rfl, e⟩ := decodeTarget_ok.1 h
    rw [e]
    exact hx n (List.mem_singleton.2 rfl)
  | _ => rfl

/-! ## The bundle and the literal decoder -/

theorem bundleOf_ok {b : Bundle} : bundleOf sym i = .ok b ↔ i.mnemonic.number = b.op ∧ operandValue sym i = .ok b.opnd := by
  obtain ⟨op, opnd⟩ := b
  unfold bundleOf
  cases operandValue sym i <;> simp

/-- The lookup of an operand fails in one way: a jump names a label that is not in the table (30_encoding.md R74). -/
theorem bundleOf_error {e : DecodeError} (h : bundleOf sym i = .error e) :
    e = .unresolvedLabel ∧ ∃ x, (i = .jum x ∨ i = .juz x) ∧ resolveTarget sym x = none := by
  cases i with
  | jum x | juz x => cases hr : resolveTarget sym x <;> simp_all [bundleOf, operandValue]
  | _ => cases h

/-- The literal decoder on one operand token: a number goes into the bundle, a jump's label is looked up, and any other token is
unusable (30_encoding.md R72). -/
theorem decodeLiteral_one (sym : SymbolTable) (m : Mnemonic) (n : Token) :
    decodeLiteral sym m [n] = match decodeInstr m [n] with
      | .ok i => bundleOf sym i
      | .error e => .error e := by
  cases hn : isInt n with
  | true => cases m <;>
      simp [decodeLiteral, decodeInstr, decodeAddr, decodeSurplus, decodeTarget, hn, bundleOf, operandValue, resolveTarget,
        Instr.mnemonic]
  | false => cases hl : lookupLabel sym n <;> cases m <;>
      simp [decodeLiteral, decodeInstr, decodeAddr, decodeSurplus, decodeTarget, hn, isJump, hl, bundleOf, operandValue,
        resolveTarget, Instr.mnemonic]

/-! ## Table words -/

theorem mnemonicOfNumber_number (m : Mnemonic) : mnemonicOfNumber m.number = some m := by
  cases m <;> rfl

theorem number_of_mnemonicOfNumber {op : BitVec 4} (h : mnemonicOfNumber op = some m) : m.number = op := by
  have := List.find?_some h
  exact beq_iff_eq.1 this

/-- The line a table word stands for decodes to an instruction of its mnemonic. -/
theorem decodeFetched_tableLine (m : Mnemonic) : ∃ i, i.mnemonic = m ∧
    decodeFetched (joinLine m (if needsOperand m then [dec 0] else [])) = .run i := by
  cases m <;> exact ⟨_, rfl, rfl⟩

/-- A table word that stands for an instruction has that instruction's number, and a line that decodes to it. -/
theorem decodeTableWord_eq_some {nbits w : Nat} (h : decodeTableWord nbits w = some i) :
    i.mnemonic.number = BitVec.ofNat 4 w ∧ ∃ line, tableLine nbits w = some line ∧ decodeFetched line = .run i := by
  unfold decodeTableWord at h
  cases ht : tableLine nbits w with
  | none => simp [ht] at h
  | some line =>
    cases hd : decodeFetched line with
    | skip => simp [ht, hd] at h
    | reject e => simp [ht, hd] at h
    | run j =>
      obtain rfl : j = i := by simpa [ht, hd] using h
      refine ⟨?_, line, rfl, hd⟩
      unfold tableLine lineOfNumber at ht
      cases hm : mnemonicOfNumber (BitVec.ofNat 4 w) with
      | none => simp [hm] at ht
      | some m =>
        obtain ⟨k, hk, hrun⟩ := decodeFetched_tableLine m
        obtain rfl : joinLine m (if needsOperand m then [dec 0] else []) = line := by simpa [hm] using ht
        obtain rfl : k = j := by rw [hrun] at hd; exact Fetched.run.inj hd
        rw [hk, number_of_mnemonicOfNumber hm]

theorem decodeTableWord_of_mnemonic {nbits w : Nat} (h : mnemonicOfNumber (BitVec.ofNat 4 w) = some m) :
    decodeTableWord nbits w ≠ none := by
  obtain ⟨i, -, hrun⟩ := decodeFetched_tableLine m
  simp [decodeTableWord, tableLine, lineOfNumber, h, hrun]

/-- Only the number 15 names no mnemonic (30_encoding.md R75). -/
theorem exists_mnemonicOfNumber {w : Nat} (h : w < 15) : ∃ m, mnemonicOfNumber (BitVec.ofNat 4 w) = some m := by
  interval_cases w <;> exact ⟨_, rfl⟩

/-- An empty line asks for nothing that runs, so a line that does is not empty. -/
theorem ne_nil_of_decodeFetched_run {line : Line} (h : decodeFetched line = .run i) : line ≠ [] := by
  rintro rfl
  exact absurd h (by simp [decodeFetched, classify])

/-- A line that decodes to an instruction is fetched next from where it is placed. -/
theorem placeLine_fetches (s : State) {line : Line} (h : decodeFetched line = .run i) : (s.placeLine line).Fetches i := by
  have hpc : validAddr (s.placeLine line).pc = true := by
    simp only [State.placeLine]
    split
    · assumption
    · rfl
  refine ⟨rfl, hpc, ?_⟩
  rw [State.currentLine, lineAt_valid hpc]
  exact (congrArg decodeFetched (Memory.read_write_same s.mem _ (ne_nil_of_decodeFetched_run h))).trans h

end Sys2Proof

open Sys2Proof Sys2Proof.Machine

/-- Settles O1: the canonical line is an instruction line of the mnemonic and the operand tokens, and these decode to the
instruction. -/
theorem decodeOfEncodeIsTheInstruction : Obligations.DecodeOfEncodeIsTheInstruction :=
  fun _ h => decodeFetched_run.2 ⟨_, _, classify_encode h, decodeInstr_argTokens h⟩

/-- Settles O2: a label operand is a token of the line, and a token of a line that is no integer can be a name. -/
theorem decodedInstructionIsWellFormed : Obligations.DecodedInstructionIsWellFormed := by
  intro line i hl h
  obtain ⟨m, args, hc, hd⟩ := decodeFetched_run.1 h
  refine decodeInstr_wf hd fun n hn => target_wf_of_mem_tokens hl ?_
  rw [tokens_of_classify hc]
  exact List.mem_cons_of_mem _ hn

/-- Settles O7: two or more operand tokens are unusable, none leaves the ten mnemonics that need one without it, and one is the
lookup. -/
theorem literalDecoderAgrees : Obligations.LiteralDecoderAgrees := by
  intro sym m args
  match args with
  | [] => cases m <;> rfl
  | [n] => exact decodeLiteral_one sym m n
  | _ :: _ :: _ => cases m <;> rfl

/-- Settles O10: a word's line is that of the mnemonic its number names, and a placed line is what the next step fetches. -/
theorem tableWordsRunNext : Obligations.TableWordsRunNext := by
  refine ⟨rfl, mnemonicOfNumber_number, rfl, fun _ _ _ h => (decodeTableWord_eq_some h).1, fun _ _ h => ?_, fun s nbits w i _ h => ?_⟩
  · obtain ⟨m, hm⟩ := exists_mnemonicOfNumber h
    exact decodeTableWord_of_mnemonic hm
  · obtain ⟨-, line, hl, hd⟩ := decodeTableWord_eq_some h
    have hf : (s.withFetchWord nbits w).Fetches i := by
      simpa only [State.withFetchWord, State.placeTableWord, hl] using placeLine_fetches s hd
    exact ⟨hf, step_run hf⟩

/-- Settles O6 by running the decoder on the eleven lines. -/
theorem specLinesDecode : Obligations.SpecLinesDecode :=
  ⟨rfl, rfl, rfl, rfl, rfl, rfl, rfl, rfl, rfl, rfl, rfl⟩

end

section
/-! What every step keeps: how an instruction ends, what it does to `PC`, memory and the output, and from these the two
invariants, `State.Inv` and `State.LabelsResolve`. -/

namespace Sys2Proof.Machine

variable {s t : State} {i : Instr}

/-! ## How an instruction ends -/

/-- The ways an instruction faults: what it has written besides the record is at most `AR` (60_exceptions.md R182 to R188). -/
inductive TakesFault (s : State) : State → Prop where
  | address (a : Int) : TakesFault s ((s.setAr a).raiseHere .invalidAddress a)
  | noNumber (a : Int) : TakesFault s ((s.setAr a).raiseHere .nonNumericCell a)
  | label : TakesFault s (s.raiseHere .unresolvedLabel s.pc)
  | input (ar : Int) : TakesFault s ((s.setAr ar).raiseHere .unsetInput s.pc)

theorem TakesFault.engine_eq (h : TakesFault s t) : t.engine = .faulted := by
  cases h <;> rfl

theorem TakesFault.fault_ne_none (h : TakesFault s t) : t.fault ≠ none := by
  cases h <;> simp

theorem withSurplus_eq_setAr (s : State) (o : Option Int) : s.withSurplus o = s.setAr (o.getD s.ar) := by
  cases o <;> rfl

/-- An instruction takes a fault, or is a `FIN`, which finishes, or completes and leaves the engine as it was; it writes the
fault record in the first case alone. -/
theorem Effect.ends (h : Effect s i t) :
    TakesFault s t ∨ ((∃ o, i = .fin o) ∧ t.engine = .finished ∧ t.fault = s.fault) ∨
      ((∀ o, i ≠ .fin o) ∧ t.engine = s.engine ∧ t.fault = s.fault) := by
  cases h with
  | badAddress | badTarget => exact .inl (.address _)
  | noNumber => exact .inl (.noNumber _)
  | unresolved => exact .inl .label
  | unset => rw [withSurplus_eq_setAr]; exact .inl (.input _)
  | fin => exact .inr (.inl ⟨⟨_, rfl⟩, by simp⟩)
  | _ => exact .inr (.inr (by simp))

/-- A `MUL` with a multiplier of zero or less has no next state (42_arithmetic.md R122). -/
theorem exec_mul_hangs {a m : Int} (h : s.CellHolds a m) (hm : m ≤ 0) : exec (.mul a) s = .fault .hang := by
  rw [exec_mul, withCell_holds _ h, if_neg (by omega)]

theorem withCell_next (a : Int) (s : State) (f : State → Int → State) :
    ∃ t, withCell a s (fun s v => .next (f s v)) = .next t := by
  rcases withCell_cases (fun s v => .next (f s v)) a s with ⟨v, -, he⟩ | ⟨-, he⟩ | ⟨-, -, he⟩ <;> exact ⟨_, he⟩

theorem withTarget_next (x : Target) (s : State) (f : State → Int → State) :
    ∃ t, withTarget x s (fun s a => .next (f s a)) = .next t := by
  rcases withTarget_cases (fun s a => .next (f s a)) x s with ⟨a, -, -, he⟩ | ⟨a, -, -, he⟩ | ⟨-, he⟩ <;> exact ⟨_, he⟩

/-- An instruction answers a next state, or is a `MUL` whose multiplier is zero or less, which hangs (00_scope.md R9). -/
theorem exec_cases (i : Instr) (s : State) : (∃ t, exec i s = .next t) ∨
    ∃ a m, i = .mul a ∧ s.CellHolds a m ∧ m ≤ 0 ∧ exec i s = .fault .hang := by
  cases i with
  | lom | add | sub | and | or | xor =>
    simp only [exec_lom, exec_add, exec_sub, exec_and, exec_or, exec_xor]
    exact .inl (withCell_next _ s _)
  | jum | juz =>
    simp only [exec_jum, exec_juz]
    exact .inl (withTarget_next _ s _)
  | not | inr | out | fin => exact .inl ⟨_, rfl⟩
  | sto a =>
    rw [exec_sto]
    rcases withStore_cases (fun s => .next s.advance) a s.acc s with ⟨-, he⟩ | ⟨-, he⟩ <;> exact .inl ⟨_, he⟩
  | inp o =>
    cases hi : s.inpr with
    | some v => exact .inl ⟨_, exec_inp_set s o hi⟩
    | none => exact .inl ⟨_, exec_inp_unset s o hi⟩
  | mul a =>
    rw [exec_mul]
    rcases withCell_cases (fun s m => if 1 ≤ m then .next ((s.setCtr 0).setAcc (s.acc + (m - 1) * s.dr)).advance else .fault .hang) a s
      with ⟨m, hm, he⟩ | ⟨-, he⟩ | ⟨-, -, he⟩
    · by_cases h1 : 1 ≤ m
      · exact .inl ⟨_, by rw [he, if_pos h1]⟩
      · exact .inr ⟨a, m, rfl, hm, by omega, by rw [he, if_neg h1]⟩
    · exact .inl ⟨_, he⟩
    · exact .inl ⟨_, he⟩

/-- Where `PC` can be after an instruction: where it was, one further, or at a target in memory. -/
theorem Effect.pc_cases (h : Effect s i t) : t.pc = s.pc ∨ t.pc = s.pc + 1 ∨ validAddr t.pc = true := by
  cases h with
  | jum _ hv | juzTaken _ hv => exact .inr (.inr hv)
  | _ => simp

/-- No instruction writes `INPR`, the symbol table or the hook setting. -/
theorem Effect.launch_eq (h : Effect s i t) : t.inpr = s.inpr ∧ t.sym = s.sym ∧ t.hook = s.hook := by
  cases h <;> simp

/-- `OUT` writes the output and calls the hook; no other instruction does either. -/
theorem Effect.output_cases (h : Effect s i t) :
    (t.outr = s.outr ∧ t.outTrace = s.outTrace ∧ t.hookCalls = s.hookCalls) ∨
      (t.outr = some s.acc ∧ t.outTrace = s.outTrace ++ [s.acc] ∧
        t.hookCalls = if s.hook then s.hookCalls ++ [t.view] else s.hookCalls) := by
  cases h with
  | out => exact .inr (by simp)
  | _ => exact .inl (by simp)

/-- Memory after an instruction: as it was, or with the text of `ACC` in the cell a `STO` has addressed. -/
theorem Effect.mem_cases (h : Effect s i t) :
    t.mem = s.mem ∨ ∃ a, i = .sto a ∧ validAddr a = true ∧ t.mem = s.mem.write a.toNat (dec s.acc) := by
  cases h with
  | sto h => exact .inr ⟨_, rfl, h, rfl⟩
  | _ => exact .inl (by simp)

theorem Effect.mem_wf (h : Effect s i t) (hm : s.mem.wf = true) : t.mem.wf = true := by
  rcases h.mem_cases with he | ⟨a, -, hv, he⟩
  · rw [he, hm]
  · rw [he]; exact Memory.write_wf _ hm (validAddr_lt hv)

/-! ## `State.Inv` -/

/-- The invariant reads nothing of `IR`. -/
theorem State.Inv.fetch (h : s.Inv) : s.fetch.Inv :=
  ⟨h.mem_wf, h.pc_low, h.pc_high, h.fault_iff, h.outr_last, h.hook_on, h.hook_off, h.hook_mem, h.sym_ok⟩

theorem State.Inv.raise (h : s.Inv) (c : Cause) (a : Int) (l : Line) : (s.raise c a l).Inv :=
  ⟨h.mem_wf, h.pc_low, h.pc_high, by simp, h.outr_last, h.hook_on, h.hook_off, h.hook_mem, h.sym_ok⟩

/-- A `PC` inside memory can move one further. -/
theorem State.Inv.advance (h : s.Inv) (hv : validAddr s.pc = true) : s.advance.Inv := by
  have hpc := validAddr_iff.1 hv
  exact ⟨h.mem_wf, by simp; omega, by simp; omega, h.fault_iff, h.outr_last, h.hook_on, h.hook_off, h.hook_mem, h.sym_ok⟩

/-- An instruction executed at a `PC` inside memory by a running engine keeps the invariant. -/
theorem Effect.inv (h : Effect s i t) (hi : s.Inv) (hr : s.engine = .running) (hv : validAddr s.pc = true) : t.Inv := by
  obtain ⟨-, hsym, hhook⟩ := h.launch_eq
  have hpc : 0 ≤ t.pc ∧ t.pc ≤ Config.memSize := by
    have hs := validAddr_iff.1 hv
    rcases h.pc_cases with he | he | he
    · omega
    · omega
    · have := validAddr_iff.1 he; omega
  have hfault : t.engine = .faulted ↔ t.fault ≠ none := by
    have hs : s.fault = none := by simpa [hr] using hi.fault_iff
    rcases h.ends with hf | ⟨-, he, hf⟩ | ⟨-, he, hf⟩
    · simp [hf.engine_eq, hf.fault_ne_none]
    · simp [he, hf, hs]
    · simp [he, hf, hs, hr]
  have hwf : t.mem.wf = true := h.mem_wf hi.mem_wf
  have hs : symbolsInMemory t.sym := hsym ▸ hi.sym_ok
  rcases h.output_cases with ⟨ho, htr, hc⟩ | ⟨ho, htr, hc⟩
  · exact ⟨hwf, hpc.1, hpc.2, hfault, by rw [ho, htr, hi.outr_last], by rw [hhook, hc, htr]; exact hi.hook_on,
      by rw [hhook, hc]; exact hi.hook_off, by rw [hc]; exact hi.hook_mem, hs⟩
  · refine ⟨hwf, hpc.1, hpc.2, hfault, by simp [ho, htr], fun hk => ?_, fun hk => ?_, fun v hmem => ?_, hs⟩
    · rw [hhook] at hk
      simp [hc, htr, hk, hi.hook_on hk]
    · rw [hhook] at hk
      simp [hc, hk, hi.hook_off hk]
    · rw [hc] at hmem
      split at hmem
      · rcases List.mem_append.1 hmem with hold | hnew
        · exact hi.hook_mem v hold
        · rw [List.mem_singleton.1 hnew]; exact hwf
      · exact hi.hook_mem v hmem

/-! ## `State.LabelsResolve` -/

theorem Memory.mem_write {m : Memory} {a : Nat} {l : Line} {c : Nat × Line} (h : c ∈ m.write a l) : c ∈ m ∨ c = (a, l) := by
  induction m with
  | nil => by_cases hl : l = [] <;> simp_all [Memory.write]
  | cons d rest ih =>
    obtain ⟨b, k⟩ := d
    by_cases hlt : b < a
    · simp only [Memory.write, if_pos hlt, List.mem_cons] at h ⊢
      rcases h with h | h
      · exact .inl (.inl h)
      · exact (ih h).imp_left .inr
    · have htail : c ∈ (if b = a then rest else (b, k) :: rest) → c ∈ (b, k) :: rest := by
        split
        · exact List.mem_cons_of_mem _
        · exact id
      simp only [Memory.write, if_neg hlt] at h
      by_cases hl : l = []
      · rw [if_pos hl] at h
        exact .inl (htail h)
      · rw [if_neg hl] at h
        exact (List.mem_cons.1 h).symm.imp_left htail

/-- A line that is read and not empty is listed. -/
theorem Memory.mem_of_read {m : Memory} {a : Nat} (h : m.read a ≠ []) : (a, m.read a) ∈ m := by
  induction m with
  | nil => exact absurd rfl h
  | cons d rest ih =>
    obtain ⟨b, k⟩ := d
    by_cases hb : b = a
    · subst hb; simp [Memory.read]
    · simp only [Memory.read, if_neg hb] at h ⊢
      exact List.mem_cons_of_mem _ (ih h)

theorem neededLabel_dec (v : Int) : neededLabel (dec v) = none := by
  simp [neededLabel]

/-- The label of an executed jump is one that its line needs. -/
theorem neededLabel_of_decodeFetched {line : Line} {n : Token}
    (h : decodeFetched line = .run (.jum (.label n)) ∨ decodeFetched line = .run (.juz (.label n))) :
    neededLabel line = some n := by
  have hname : ∀ u : Token, .label n = (if isInt u = true then Target.addr (intOf u) else .label u) →
      u = n ∧ isInt u = false := fun u e => by cases hu : isInt u <;> simp_all
  rcases h with h | h <;>
  · obtain ⟨m, args, hc, hd⟩ := decodeFetched_run.1 h
    obtain rfl := decodeInstr_mnemonic hd
    obtain ⟨u, rfl, e⟩ := decodeTarget_ok.1 hd
    obtain ⟨rfl, hu⟩ := hname u (by simpa using e)
    exact neededLabel_eq_some.2 ⟨_, by simp [Instr.mnemonic], hc, hu⟩

/-- Where every label needed is in the table, a jump that is fetched finds its target. -/
theorem State.LabelsResolve.resolveTarget_ne_none (h : s.LabelsResolve) {x : Target}
    (hi : i = .jum x ∨ i = .juz x) (hf : s.Fetches i) : resolveTarget s.sym x ≠ none := by
  obtain ⟨-, hv, hd⟩ := hf
  cases x with
  | addr a => simp [resolveTarget]
  | label n =>
    have hread : s.currentLine = s.mem.read s.pc.toNat := lineAt_valid hv
    have hmem : (s.pc.toNat, s.currentLine) ∈ s.mem := by
      rw [hread]
      exact Memory.mem_of_read (hread ▸ ne_nil_of_decodeFetched_run hd)
    have hneed : neededLabel s.currentLine = some n :=
      neededLabel_of_decodeFetched (by rcases hi with rfl | rfl <;> simp [hd])
    simpa [resolveTarget] using h _ hmem n hneed

/-- The property is one of the memory and the symbol table alone. -/
theorem State.LabelsResolve.congr (h : s.LabelsResolve) (hm : t.mem = s.mem) (hs : t.sym = s.sym) : t.LabelsResolve := by
  unfold State.LabelsResolve
  rw [hm, hs]
  exact h

/-- What a `STO` writes is no jump line, so the labels needed are those needed before. -/
theorem Effect.labelsResolve (h : Effect s i t) (hl : s.LabelsResolve) : t.LabelsResolve := by
  obtain ⟨-, hsym, -⟩ := h.launch_eq
  rcases h.mem_cases with he | ⟨a, -, -, he⟩
  · exact hl.congr he hsym
  · intro c hc n hn
    rw [hsym]
    rcases Memory.mem_write (he ▸ hc) with hold | rfl
    · exact hl c hold n hn
    · simp [neededLabel_dec] at hn

/-- A line that cannot be executed is rejected for its opcode or its operand tokens, never for a label (log 12). -/
theorem decodeFetched_reject {line : Line} {e : DecodeError} (h : decodeFetched line = .reject e) :
    e = .invalidOpcode ∨ e = .invalidOperand := by
  cases hc : classify line with
  | instr m args =>
    cases hd : decodeInstr m args with
    | ok i => simp [decodeFetched, hc, hd] at h
    | error e' =>
      obtain rfl : e' = e := by simpa [decodeFetched, hc, hd] using h
      exact .inr (decodeInstr_error hd)
  | empty | bad => exact .inl (by simpa [decodeFetched, hc] using h.symm)
  | label | comment | data | dataJunk => simp [decodeFetched, hc] at h

/-- Where a jump's label is found, no fault of the instruction is `UnresolvedLabel`. -/
theorem Effect.cause_ne_unresolvedLabel (h : Effect s i t) (hr : s.engine = .running) (ht : t.engine = .faulted)
    (hx : ∀ x, i = .jum x ∨ i = .juz x → resolveTarget s.sym x ≠ none) {r : FaultRecord} (hf : t.fault = some r) :
    r.cause ≠ .unresolvedLabel := by
  cases h with
  | unresolved hi hn => exact absurd hn (hx _ hi)
  | badAddress | noNumber | badTarget | unset =>
    simp only [State.raiseHere_fault, Option.some.injEq] at hf
    simp [← hf]
  | _ => simp [hr] at ht

/-- Every load establishes that the labels needed are in the table: the check of the jump lines has found them. -/
theorem labelsResolve_of_load {lines : List Line} {init : Init} {s : State} (h : load lines init = .ok s) :
    s.LabelsResolve := by
  obtain ⟨-, sym, -, hf, rfl⟩ := load_ok_iff.1 h
  intro c hc n hn
  obtain ⟨-, -, hl⟩ := memoryOf_mem hc
  exact (findUndefined_none_iff lines sym 0).1 hf c.2 hl n hn

end Sys2Proof.Machine

open Sys2Proof Sys2Proof.Machine

/-- Settles O47, by what a step can do: the step cycle's own moves and each instruction keep every clause. -/
theorem stepKeepsTheInvariant : Obligations.StepKeepsTheInvariant := by
  intro s t hi h
  rcases step_cases s with ⟨-, he⟩ | ⟨-, -, he⟩ | ⟨-, hv, -, he⟩ | ⟨e, -, -, -, he⟩ | ⟨i, ⟨hr, hv, -⟩, he⟩
  · rw [he] at h; cases h; exact hi
  · rw [he] at h; cases h; exact hi.raise _ _ _
  · rw [he] at h; cases h; exact hi.fetch.advance hv
  · rw [he] at h; cases h; exact hi.fetch.raise _ _ _
  · exact (effect_of_exec (he ▸ h)).inv hi.fetch hr hv

/-- Settles O50: no step writes a jump line, and a jump that is fetched stands in memory. -/
theorem loadedLabelsAlwaysResolve : Obligations.LoadedLabelsAlwaysResolve := by
  refine ⟨fun _ _ _ h => labelsResolve_of_load h, fun s t hl h => ?_⟩
  rcases step_cases s with ⟨hne, he⟩ | ⟨-, -, he⟩ | ⟨-, -, -, he⟩ | ⟨e, -, -, hd, he⟩ | ⟨i, hi, he⟩
  · rw [he] at h; cases h; exact ⟨hl, fun hr => absurd hr hne⟩
  · rw [he] at h; cases h
    exact ⟨hl, fun _ _ r hf => by cases hf; simp⟩
  · rw [he] at h; cases h
    exact ⟨hl, fun hr ht => by simp [hr] at ht⟩
  · rw [he] at h; cases h
    refine ⟨hl, fun _ _ r hf => ?_⟩
    cases hf
    rcases decodeFetched_reject hd with rfl | rfl <;> simp [causeOf]
  · have heff : Effect s.fetch i t := effect_of_exec (he ▸ h)
    exact ⟨heff.labelsResolve (s := s.fetch) hl, fun hr ht r hf =>
      heff.cause_ne_unresolvedLabel hr ht (fun x hx => hl.resolveTarget_ne_none hx hi) hf⟩

end

section
/-! Decimal text, tokens and the classes of lines (00_scope.md R8, 30_encoding.md R61 to R70, 20_memory.md R44). -/

namespace Sys2Proof.Machine

/-! ## Decimal text -/

theorem isDigit_iff {c : Char} : isDigit c = true ↔ '0' ≤ c ∧ c ≤ '9' := by
  simp only [isDigit, Bool.and_eq_true, decide_eq_true_eq]
  exact Iff.rfl

theorem all_isDigit_iff {ds : Line} : ds.all isDigit = true ↔ ∀ c ∈ ds, '0' ≤ c ∧ c ≤ '9' := by
  simp [List.all_eq_true, isDigit_iff]

theorem isDigits_iff {ds : Line} : isDigits ds = true ↔ ds ≠ [] ∧ ∀ c ∈ ds, '0' ≤ c ∧ c ≤ '9' := by
  rw [isDigits, Bool.and_eq_true, all_isDigit_iff, Bool.not_eq_true', List.isEmpty_eq_false_iff]

theorem unsignedPart_of_digits {ds : Line} (h : ds.all isDigit = true) : unsignedPart ds = ds := by
  simp [unsignedPart, hasMinus_of_digits h]

/-- An integer token is a run of digits, or `-` and a run of digits (00_scope.md R8). -/
theorem isInt_iff {u : Token} : isInt u = true ↔ ∃ ds, isDigits ds = true ∧ (u = ds ∨ u = '-' :: ds) := by
  constructor
  · intro h
    refine ⟨unsignedPart u, h, ?_⟩
    cases u with
    | nil => exact .inl rfl
    | cons c cs =>
      by_cases hc : c = '-'
      · subst hc; exact .inr rfl
      · exact .inl (by simp [unsignedPart, hasMinus, hc])
  · rintro ⟨ds, h, rfl | rfl⟩
    · have hall : u.all isDigit = true := (Bool.and_eq_true_iff.1 h).2
      rw [isInt, unsignedPart_of_digits hall, h]
    · exact h

theorem intOf_of_digits {ds : Line} (h : ds.all isDigit = true) : intOf ds = natOf ds := by
  simp [intOf, hasMinus_of_digits h, unsignedPart_of_digits h]

theorem intOf_minus (ds : Line) : intOf ('-' :: ds) = -(natOf ds : Int) := rfl

theorem natOf_zero_cons (ds : Line) : natOf ('0' :: ds) = natOf ds := rfl

/-- The digits of a number that is not zero start with no `0`: the first digit is that of a number below ten. -/
theorem digitsOf_head_ne_zero {k n : Nat} (hn : n ≠ 0) (h : n < 10 ^ (k + 1)) : (digitsOf k n).head? ≠ some '0' := by
  have hdigit : ∀ d, d ≠ 0 → d < 10 → digitChar d ≠ '0' := fun d h0 h10 => by interval_cases d <;> simp_all [digitChar]
  induction k generalizing n with
  | zero =>
    have h10 : n < 10 := by simpa using h
    simpa [digitsOf, Nat.mod_eq_of_lt h10] using hdigit n hn h10
  | succ k ih =>
    by_cases h10 : n < 10
    · simpa [digitsOf, h10] using hdigit n hn h10
    · rw [digitsOf, if_neg h10, List.head?_append_of_ne_nil _ (digitsOf_ne_nil k _)]
      exact ih (by omega) (by rw [Nat.pow_succ] at h; omega)

theorem decNat_head_ne_zero {n : Nat} (hn : n ≠ 0) : (decNat n).head? ≠ some '0' :=
  digitsOf_head_ne_zero hn <| calc
    n < 2 ^ (Nat.log2 n + 1) := Nat.lt_log2_self
    _ ≤ 10 ^ (Nat.log2 n + 1) := Nat.pow_le_pow_left (by omega) _

/-- Canonical text has no leading zero, with or without a sign (00_scope.md R8). -/
theorem dec_no_leading_zero {v : Int} (hv : v ≠ 0) (rest : Line) : dec v ≠ '0' :: rest ∧ dec v ≠ '-' :: '0' :: rest := by
  have hhead : ∀ r, decNat v.natAbs ≠ '0' :: r := fun r e =>
    decNat_head_ne_zero (Int.natAbs_ne_zero.2 hv) (by rw [e]; rfl)
  by_cases h : v < 0
  · simp [dec, h, hhead]
  · refine ⟨by simpa [dec, h] using hhead rest, fun e => ?_⟩
    have := hasMinus_decNat v.natAbs
    rw [dec, if_neg h] at e
    simp [e, hasMinus] at this

/-! ## Tokens -/

theorem isSpace_iff {c : Char} : isSpace c = true ↔ c = ' ' ∨ c = '\t' := by
  simp [isSpace]

theorem isToken_iff {u : Token} : IsToken u ↔ u ≠ [] ∧ ∀ c ∈ u, c ≠ ' ' ∧ c ≠ '\t' := by
  simp [IsToken, isSpace]

/-- Whitespace starts no token. -/
theorem startsToken_spaces {w : Line} (hne : w ≠ []) (h : ∀ c ∈ w, isSpace c = true) (l : Line) :
    startsToken (w ++ l) = false := by
  cases w with
  | nil => exact absurd rfl hne
  | cons c cs => simp [startsToken, h c]

theorem tokens_eq_nil_of_spaces {w : Line} (h : ∀ c ∈ w, isSpace c = true) : tokens w = [] := by
  simpa using tokens_spaces h []

/-- Tokens with whitespace between them, and perhaps after the last, come apart into themselves (30_encoding.md R62). -/
theorem tokens_separated {u : Token} {more : List (Line × Token)} {last : Line} (hu : IsToken u)
    (hmore : ∀ p ∈ more, (p.1 ≠ [] ∧ ∀ c ∈ p.1, isSpace c = true) ∧ IsToken p.2) (hlast : ∀ c ∈ last, isSpace c = true) :
    tokens (u ++ (more.flatMap (fun p => p.1 ++ p.2) ++ last)) = u :: more.map Prod.snd := by
  induction more generalizing u with
  | nil =>
    have hstart : startsToken last = false := by
      cases last with
      | nil => rfl
      | cons c cs => simpa using startsToken_spaces (List.cons_ne_nil c cs) hlast []
    simp [tokens_run hu hstart, tokens_eq_nil_of_spaces hlast]
  | cons p rest ih =>
    obtain ⟨⟨hne, hsp⟩, htok⟩ := hmore p (List.mem_cons_self ..)
    have hrest := ih htok fun q hq => hmore q (List.mem_cons_of_mem _ hq)
    simp only [List.flatMap_cons, List.append_assoc, List.map_cons]
    rw [tokens_run hu (startsToken_spaces hne hsp _), tokens_spaces hsp, hrest]

end Sys2Proof.Machine

namespace Sys2Proof

open Machine

/-! ## The class of a line -/

variable {line : Line} {u : Token}

theorem isCommentToken_iff : isCommentToken u = true ↔ u.head? = some '#' := by
  cases u <;> simp [isCommentToken]

/-- A label token is a text that is not empty and a `:` (30_encoding.md R66). -/
theorem isLabelToken_iff : isLabelToken u = true ↔ ∃ n, n ≠ [] ∧ u = n ++ [':'] := by
  simp only [isLabelToken, Bool.and_eq_true, beq_iff_eq, decide_eq_true_eq]
  constructor
  · rintro ⟨hlast, hlen⟩
    obtain ⟨n, rfl⟩ := List.getLast?_eq_some_iff.1 hlast
    exact ⟨n, by rintro rfl; simp at hlen, rfl⟩
  · rintro ⟨n, hn, rfl⟩
    have := List.length_pos_iff.2 hn
    simp
    omega

theorem isInt_not_comment (h : isInt u = true) : isCommentToken u = false := by
  rw [Bool.eq_false_iff, ne_eq, isCommentToken_iff]
  intro hc
  rcases isInt_chars h (List.mem_of_head? hc) with h' | h' <;> exact absurd h' (by decide)

theorem isInt_not_label (h : isInt u = true) : isLabelToken u = false := by
  rw [Bool.eq_false_iff, ne_eq, isLabelToken_iff]
  rintro ⟨n, -, rfl⟩
  rcases isInt_chars h (c := ':') (by simp) with h' | h' <;> exact absurd h' (by decide)

/-- The class of a line by its tokens, one constructor per class: the conditions exclude one another (30_encoding.md R64). -/
inductive LineForm (line : Line) : LineClass → Prop where
  | empty (h : tokens line = []) : LineForm line .empty
  | comment {u : Token} {args : List Token} (h : tokens line = u :: args) (hc : u.head? = some '#') : LineForm line (.comment line)
  | label {n : Token} (h : tokens line = [n ++ [':']]) (hn : n ≠ []) (hc : n.head? ≠ some '#') : LineForm line (.label n)
  | data {u : Token} (h : tokens line = [u]) (hi : isInt u = true) : LineForm line (.data (intOf u))
  | dataJunk {u v : Token} {rest : List Token} (h : tokens line = u :: v :: rest) (hi : isInt u = true) : LineForm line (.dataJunk line)
  | instr {m : Mnemonic} {args : List Token} (h : tokens line = m.text :: args) : LineForm line (.instr m args)
  | bad {u : Token} {args : List Token} (h : tokens line = u :: args) (hc : u.head? ≠ some '#')
      (hl : args = [] → isLabelToken u = false) (hi : isInt u = false) (hm : ∀ m : Mnemonic, u ≠ m.text) : LineForm line (.bad line)

/-- Every line has the form of its class: the tests of `classify`, in their order (decision D11). -/
theorem lineForm_classify (line : Line) : LineForm line (classify line) := by
  unfold classify
  split
  · next h => exact .empty h
  · next u args h =>
    split
    · next hc => exact .comment h (isCommentToken_iff.1 hc)
    · next hc =>
      rw [isCommentToken_iff] at hc
      split
      · next hl =>
        obtain ⟨ha, hl⟩ := Bool.and_eq_true_iff.1 hl
        obtain ⟨n, hn, rfl⟩ := isLabelToken_iff.1 hl
        rw [List.isEmpty_iff.1 ha] at h
        rw [List.dropLast_concat]
        exact .label h hn (by rwa [List.head?_append_of_ne_nil _ hn] at hc)
      · next hl =>
        split
        · next hi =>
          cases args with
          | nil => exact .data h hi
          | cons v rest => exact .dataJunk h hi
        · next hi =>
          split
          · next m hm => exact .instr (mnemonicOf_eq_some.1 hm ▸ h)
          · next hm =>
            refine .bad h hc (by rintro rfl; simpa using hl) (by simpa using hi) fun m e => ?_
            rw [e, mnemonicOf_text] at hm
            cases hm

/-- A line of the form of a class is of that class. -/
theorem LineForm.classify_eq {c : LineClass} (h : LineForm line c) : classify line = c := by
  cases h with
  | empty h => simp [classify, h]
  | comment h hc => simp [classify, h, isCommentToken_iff.2 hc]
  | @label n h hn hc =>
    have hcom : isCommentToken (n ++ [':']) = false := by
      rwa [Bool.eq_false_iff, ne_eq, isCommentToken_iff, List.head?_append_of_ne_nil _ hn]
    simp [classify, h, hcom, isLabelToken_iff.2 ⟨n, hn, rfl⟩]
  | data h hi => simp [classify, h, hi, isInt_not_comment hi, isInt_not_label hi]
  | dataJunk h hi => simp [classify, h, hi, isInt_not_comment hi]
  | instr h => exact classify_of_tokens h
  | @bad u args h hc hl hi hm =>
    have hcom : isCommentToken u = false := by rwa [Bool.eq_false_iff, ne_eq, isCommentToken_iff]
    have hlab : (args.isEmpty && isLabelToken u) = false := by
      cases args with
      | nil => exact hl rfl
      | cons => rfl
    have hmn : mnemonicOf u = none := Option.eq_none_iff_forall_ne_some.2 fun m e => hm m (mnemonicOf_eq_some.1 e)
    simp [classify, h, hcom, hlab, hi, hmn]

theorem lineForm_iff {c : LineClass} : LineForm line c ↔ classify line = c :=
  ⟨LineForm.classify_eq, fun h => h ▸ lineForm_classify line⟩

/-- The data value of a line is that of its only token (20_memory.md R44). -/
theorem dataValue_eq_some {v : Int} : dataValue line = some v ↔ ∃ u, isInt u = true ∧ tokens line = [u] ∧ v = intOf u := by
  have hclass : dataValue line = some v ↔ classify line = .data v := by
    cases hc : classify line <;> simp [dataValue, hc]
  rw [hclass, ← lineForm_iff]
  constructor
  · rintro ⟨⟩
    next u h hi => exact ⟨u, hi, h, rfl⟩
  · rintro ⟨u, hi, h, rfl⟩
    exact .data h hi

end Sys2Proof

open Sys2Proof Sys2Proof.Machine

/-- Settles O3: an integer token is a sign and digits, `natOf` is defined digit by digit, and the digits of a number that is not
zero start with none. -/
theorem decimalTextIsCanonical : Obligations.DecimalTextIsCanonical := by
  refine ⟨fun u => ?_, fun ds c hds h0 h9 => ?_, fun v => ⟨isInt_dec v, intOf_dec v⟩, rfl, fun v rest hv => dec_no_leading_zero hv rest⟩
  · simp only [isInt_iff, isDigits_iff, and_assoc]
  · have hall : ds.all isDigit = true := all_isDigit_iff.2 hds
    have hc : isDigit c = true := isDigit_iff.2 ⟨h0, h9⟩
    refine ⟨?_, ?_, ?_⟩
    · rw [intOf_of_digits (by simp [hall, hc]), intOf_of_digits hall, natOf_append]
      rfl
    · rw [intOf_minus, intOf_of_digits hall]
    · rw [intOf_of_digits (by rw [List.all_cons, hall]; rfl), intOf_of_digits hall, natOf_zero_cons]

/-- Settles O4, by induction on the tokens after the first. -/
theorem tokensAreMaximalRuns : Obligations.TokensAreMaximalRuns := by
  intro first u more last hspace hu hmore
  simp only [List.mem_append, ← isSpace_iff] at hspace hmore
  have hlast : ∀ c ∈ last, isSpace c = true := fun c hc => hspace c (.inr hc)
  have hfirst : ∀ c ∈ first, isSpace c = true := fun c hc => hspace c (.inl hc)
  constructor
  · rw [List.append_assoc, List.append_assoc, tokens_spaces hfirst]
    exact tokens_separated (isToken_iff.2 hu) (fun p hp => ⟨(hmore p hp).1, isToken_iff.2 (hmore p hp).2⟩) hlast
  · rw [tokens_spaces hfirst, tokens_eq_nil_of_spaces hlast]

/-- Settles O5: each clause is the form of one class. -/
theorem lineClassesByTokens : Obligations.LineClassesByTokens := by
  intro line
  refine ⟨fun h => ?_, fun cs rest h => ?_, fun n hn hc h => ?_, fun u hi h => ?_, fun u v rest hi h => ?_,
    fun m u args hm => ?_, fun u rest h hc hl hi hm => ?_, fun v => dataValue_eq_some⟩
  · exact (LineForm.empty h).classify_eq
  · exact (LineForm.comment h rfl).classify_eq
  · exact (LineForm.label h hn hc).classify_eq
  · exact (LineForm.data h hi).classify_eq
  · exact (LineForm.dataJunk h hi).classify_eq
  · have hu : u = m.text := by
      have hrow : (m, u) ∈ opcodeTable.map fun m => (m, m.text) := hm
      obtain ⟨m', -, e⟩ := List.mem_map.1 hrow
      cases e
      rfl
    subst hu
    exact ⟨rfl, classify_of_tokens⟩
  · have hlab : rest = [] → isLabelToken u = false := fun hr => by
      rw [Bool.eq_false_iff, ne_eq, isLabelToken_iff]
      rintro ⟨n, hn, rfl⟩
      exact hn (by simpa using hl hr (by simp))
    exact (LineForm.bad h hc hlab hi hm).classify_eq

end

section
/-! Canonical text (30_encoding.md R78, decision D23): a line and its canonical text are of one class with the same fields, so a step
commutes with putting every line of the state in canonical text. -/

namespace Sys2Proof

open Machine

variable {line : Line}

/-! ## The class of canonical text -/

theorem isInt_canonicalToken (u : Token) : isInt (canonicalToken u) = isInt u := by
  unfold canonicalToken
  split
  · next h => rw [isInt_dec, h]
  · rfl

theorem intOf_canonicalToken (u : Token) : intOf (canonicalToken u) = intOf u := by
  unfold canonicalToken
  split
  · exact intOf_dec _
  · rfl

theorem canonicalToken_of_not_int {u : Token} (h : isInt u = false) : canonicalToken u = u := by
  simp [canonicalToken, h]

theorem canonicalToken_isToken {u : Token} (h : IsToken u) : IsToken (canonicalToken u) := by
  unfold canonicalToken
  split
  · exact dec_isToken _
  · exact h

theorem canonicalToken_idem (u : Token) : canonicalToken (canonicalToken u) = canonicalToken u := by
  cases h : isInt u with
  | true => simp [canonicalToken, h]
  | false => rw [canonicalToken_of_not_int h, canonicalToken_of_not_int h]

/-- The operand tokens of the canonical text of an instruction line: one is put in canonical form, and a line with two or more,
which cannot be executed, stays as it is (30_encoding.md R78). -/
def canonicalArgs : List Token → List Token
  | [] => []
  | [u] => [canonicalToken u]
  | u :: v :: rest => u :: v :: rest

/-- The class of the canonical text of a line of a class. -/
def LineClass.canonical : LineClass → LineClass
  | .instr m args => .instr m (canonicalArgs args)
  | .empty => .empty
  | .comment l => .comment l
  | .label n => .label n
  | .data v => .data v
  | .dataJunk l => .dataJunk l
  | .bad l => .bad l

theorem canonical_of_empty (h : classify line = .empty) : canonical line = [] := by
  simp [canonical, h]

theorem canonical_of_data {v : Int} (h : classify line = .data v) : canonical line = dec v := by
  simp [canonical, h]

theorem canonical_of_label {n : Token} (h : classify line = .label n) : canonical line = n ++ [':'] := by
  simp [canonical, h]

theorem canonical_of_mnemonic {m : Mnemonic} (h : classify line = .instr m []) : canonical line = m.text := by
  simp [canonical, h]

theorem canonical_of_operand {m : Mnemonic} {u : Token} (h : classify line = .instr m [u]) :
    canonical line = m.text ++ ' ' :: canonicalToken u := by
  simp [canonical, h]

theorem canonical_of_surplus {m : Mnemonic} {u v : Token} {rest : List Token} (h : classify line = .instr m (u :: v :: rest)) :
    canonical line = line := by
  simp [canonical, h]

theorem canonical_of_raw (h : classify line ∈ [.comment line, .dataJunk line, .bad line]) : canonical line = line := by
  simp only [List.mem_cons, List.not_mem_nil, or_false] at h
  rcases h with h | h | h <;> simp [canonical, h]

/-- An operand token of a line is a token. -/
theorem isToken_of_operand {m : Mnemonic} {u : Token} (h : classify line = .instr m [u]) : IsToken u :=
  tokens_all line u (by simp [tokens_of_classify h])

/-- Classifying canonical text gives back the class, with its operand in canonical form (30_encoding.md R78). -/
theorem classify_canonical (line : Line) : classify (canonical line) = (classify line).canonical := by
  obtain ⟨c, hc⟩ : ∃ c, classify line = c := ⟨_, rfl⟩
  rw [hc]
  cases lineForm_iff.2 hc with
  | empty => rw [canonical_of_empty hc]; rfl
  | data => rw [canonical_of_data hc, classify_dec, intOf_dec]; rfl
  | @label n h hn hcom =>
    rw [canonical_of_label hc]
    exact (LineForm.label (tokens_token (tokens_all line _ (by simp [h]))) hn hcom).classify_eq
  | comment | dataJunk | bad => rw [canonical_of_raw (by simp [hc]), hc]; rfl
  | @instr m args =>
    match args, hc with
    | [], hc => rw [canonical_of_mnemonic hc, classify_mnemonic]; rfl
    | [u], hc => rw [canonical_of_operand hc, classify_mnemonic_arg _ (canonicalToken_isToken (isToken_of_operand hc))]; rfl
    | _ :: _ :: _, hc => rw [canonical_of_surplus hc, hc]; rfl

/-- Canonical text is its own canonical text. -/
theorem canonical_idem (line : Line) : canonical (canonical line) = canonical line := by
  obtain ⟨c, hc⟩ : ∃ c, classify line = c := ⟨_, rfl⟩
  have hcan := classify_canonical line
  rw [hc] at hcan
  cases lineForm_iff.2 hc with
  | empty => rw [canonical_of_empty hcan, canonical_of_empty hc]
  | data => rw [canonical_of_data hcan, canonical_of_data hc]
  | label => rw [canonical_of_label hcan, canonical_of_label hc]
  | comment | dataJunk | bad => rw [canonical_of_raw (line := line) (by simp [hc]), canonical_of_raw (by simp [hc])]
  | @instr m args =>
    match args, hc, hcan with
    | [], hc, hcan => rw [canonical_of_mnemonic hcan, canonical_of_mnemonic hc]
    | [u], hc, hcan => rw [canonical_of_operand hcan, canonical_of_operand hc, canonicalToken_idem]
    | _ :: _ :: _, hc, _ => rw [canonical_of_surplus hc, canonical_of_surplus hc]

/-! ## What reads a line reads its class -/

/-- The decoder reads of an operand token whether it is an integer, which integer, and its text if it is none. -/
theorem decodeInstr_canonicalArgs (m : Mnemonic) (args : List Token) : decodeInstr m (canonicalArgs args) = decodeInstr m args := by
  match args with
  | [] => rfl
  | _ :: _ :: _ => rfl
  | [u] =>
    have haddr : ∀ mk, decodeAddr [canonicalToken u] mk = decodeAddr [u] mk := fun mk => by
      simp [decodeAddr, isInt_canonicalToken, intOf_canonicalToken]
    have hsurplus : ∀ mk, decodeSurplus [canonicalToken u] mk = decodeSurplus [u] mk := fun mk => by
      simp [decodeSurplus, isInt_canonicalToken, intOf_canonicalToken]
    have htarget : ∀ mk, decodeTarget [canonicalToken u] mk = decodeTarget [u] mk := fun mk => by
      cases h : isInt u with
      | true => simp [decodeTarget, isInt_canonicalToken, intOf_canonicalToken, h]
      | false => rw [canonicalToken_of_not_int h]
    cases m <;> simp [canonicalArgs, decodeInstr, haddr, hsurplus, htarget]

theorem decodeFetched_canonical (line : Line) : decodeFetched (canonical line) = decodeFetched line := by
  have hcan := classify_canonical line
  cases hc : classify line with
  | instr m args =>
    rw [hc] at hcan
    rw [decodeFetched_instr hcan, decodeFetched_instr hc, decodeInstr_canonicalArgs]
  | _ => simp [decodeFetched, hcan, hc, LineClass.canonical]

theorem dataValue_canonical (line : Line) : dataValue (canonical line) = dataValue line := by
  have hcan := classify_canonical line
  cases hc : classify line <;> simp [dataValue, hcan, hc, LineClass.canonical]

theorem neededLabel_canonical (line : Line) : neededLabel (canonical line) = neededLabel line := by
  have hcan := classify_canonical line
  cases hc : classify line with
  | instr m args =>
    match args, hc with
    | [], hc | _ :: _ :: _, hc => simp [neededLabel, hcan, hc, LineClass.canonical, canonicalArgs]
    | [u], hc =>
      cases hu : isInt u with
      | true => simp [neededLabel, hcan, hc, LineClass.canonical, canonicalArgs, isInt_canonicalToken, hu]
      | false => simp [neededLabel, hcan, hc, LineClass.canonical, canonicalArgs, canonicalToken_of_not_int hu]
  | _ => simp [neededLabel, hcan, hc, LineClass.canonical]

theorem classify_canonical_eq_label {n : Token} : classify (canonical line) = .label n ↔ classify line = .label n := by
  rw [classify_canonical]
  cases classify line <;> simp [LineClass.canonical]

/-- Only an operand token can make the class of canonical text another one. -/
theorem classify_canonical_of_no_operand (h : ∀ m u, classify line ≠ .instr m [u]) :
    classify (canonical line) = classify line := by
  rw [classify_canonical]
  cases hc : classify line with
  | instr m args =>
    match args, hc with
    | [], _ => rfl
    | [u], hc => exact absurd hc (h m u)
    | _ :: _ :: _, _ => rfl
  | _ => rfl

@[simp] theorem canonical_nil : canonical [] = [] := rfl

@[simp] theorem canonical_dec (v : Int) : canonical (dec v) = dec v := by
  rw [canonical_of_data (classify_dec v), intOf_dec]

end Sys2Proof

namespace Sys2Proof.Machine

variable {s t : State} {i : Instr}

/-! ## Canonical memory -/

theorem canonicalMemory_cons (b : Nat) (l : Line) (m : Memory) :
    canonicalMemory ((b, l) :: m) =
      if canonical l = [] then canonicalMemory m else (b, canonical l) :: canonicalMemory m := by
  by_cases h : canonical l = [] <;> simp [canonicalMemory, h]

/-- Each cell of the canonical view holds the canonical text of its line. -/
theorem canonicalMemory_read {m : Memory} {lo : Nat} (h : m.rising lo = true) (a : Nat) :
    (canonicalMemory m).read a = canonical (m.read a) := by
  induction m generalizing lo with
  | nil => rfl
  | cons c rest ih =>
    obtain ⟨b, l⟩ := c
    simp only [Memory.rising, Bool.and_eq_true, decide_eq_true_eq] at h
    have hrest := ih h.2
    rw [canonicalMemory_cons]
    by_cases hb : b = a
    · subst hb
      rw [Memory.read_of_rising h.2 (Nat.lt_succ_self b), canonical_nil] at hrest
      by_cases hl : canonical l = [] <;> simp [hl, hrest, Memory.read]
    · by_cases hl : canonical l = [] <;> simp [hl, hrest, Memory.read, hb]

theorem canonicalMemory_rising {m : Memory} {lo : Nat} (h : m.rising lo = true) : (canonicalMemory m).rising lo = true := by
  induction m generalizing lo with
  | nil => rfl
  | cons c rest ih =>
    obtain ⟨b, l⟩ := c
    simp only [Memory.rising, Bool.and_eq_true, decide_eq_true_eq] at h
    rw [canonicalMemory_cons]
    split
    · exact Memory.rising_mono (ih h.2) (by omega)
    · simp [Memory.rising, h.1, ih h.2]

theorem canonicalMemory_wf {m : Memory} (h : m.wf = true) : (canonicalMemory m).wf = true := by
  rw [Memory.wf_iff] at h ⊢
  refine ⟨canonicalMemory_rising h.1, fun c hc => ?_⟩
  obtain ⟨d, hd, he⟩ := List.mem_filterMap.1 hc
  split at he
  · cases he
  · next hne =>
    cases he
    exact ⟨(h.2 d hd).1, hne⟩

/-- A write of canonical text commutes with putting memory in canonical text. -/
theorem canonicalMemory_write {m : Memory} {a : Nat} {l : Line} (h : m.wf = true) (ha : a < Config.memSize) (hl : canonical l = l) :
    canonicalMemory (m.write a l) = (canonicalMemory m).write a l := by
  obtain ⟨r1, e1⟩ := (Memory.wf_iff _).1 (canonicalMemory_wf (Memory.write_wf l h ha))
  obtain ⟨r2, e2⟩ := (Memory.wf_iff _).1 (Memory.write_wf l (canonicalMemory_wf h) ha)
  refine Memory.ext_of_read r1 r2 (fun c hc => (e1 c hc).2) (fun c hc => (e2 c hc).2) fun b => ?_
  rw [canonicalMemory_read ((Memory.wf_iff _).1 (Memory.write_wf l h ha)).1, Memory.read_write_wf h,
    Memory.read_write_wf (canonicalMemory_wf h), canonicalMemory_read ((Memory.wf_iff _).1 h).1]
  split
  · exact hl
  · rfl

/-! ## The canonical view of a state -/

theorem currentLine_canonicalView (hm : s.mem.wf = true) : s.canonicalView.currentLine = canonical s.currentLine := by
  have hread := canonicalMemory_read ((Memory.wf_iff _).1 hm).1 s.pc.toNat
  cases hv : validAddr s.pc <;> simp [State.currentLine, State.lineAt, State.canonicalView, hv, hread]

theorem fetch_canonicalView (hm : s.mem.wf = true) : s.canonicalView.fetch = s.fetch.canonicalView :=
  congrArg s.canonicalView.setIr (currentLine_canonicalView hm)

theorem dataValue_canonicalView (hm : s.mem.wf = true) (a : Nat) :
    dataValue (s.canonicalView.mem.read a) = dataValue (s.mem.read a) := by
  rw [← dataValue_canonical (s.mem.read a)]
  exact congrArg dataValue (canonicalMemory_read ((Memory.wf_iff _).1 hm).1 a)

/-- A cell holds the integer it held. -/
theorem State.CellHolds.canonicalView (hm : s.mem.wf = true) {a v : Int} (h : s.CellHolds a v) : s.canonicalView.CellHolds a v :=
  ⟨h.1, (dataValue_canonicalView hm _).trans h.2⟩

/-- A fault taken in the canonical view records the canonical text of the line. -/
theorem raiseHere_canonicalView (hm : s.mem.wf = true) (c : Cause) (a : Int) :
    (s.raiseHere c a).canonicalView = s.canonicalView.raiseHere c a := by
  rw [State.raiseHere, State.raiseHere, currentLine_canonicalView hm]
  rfl

theorem withSurplus_canonicalView (s : State) (o : Option Int) : (s.withSurplus o).canonicalView = s.canonicalView.withSurplus o := by
  cases o <;> rfl

theorem callHook_canonicalView (s : State) : s.callHook.canonicalView = s.canonicalView.callHook := by
  cases hk : s.hook
  · simp [State.callHook, State.canonicalView, hk]
  · simp only [State.callHook, State.canonicalView, hk, if_true, List.map_append, List.map_cons, List.map_nil]
    rfl

/-- From the canonical view each way an instruction can go leads to the canonical view of the state it leads to. -/
theorem Effect.canonicalView (h : Effect s i t) (hm : s.mem.wf = true) : Effect s.canonicalView i t.canonicalView := by
  cases h with
  | lom h => exact .lom (h.canonicalView hm)
  | add h => exact .add (h.canonicalView hm)
  | sub h => exact .sub (h.canonicalView hm)
  | mul h hpos => exact .mul (h.canonicalView hm) hpos
  | and h => exact .and (h.canonicalView hm)
  | or h => exact .or (h.canonicalView hm)
  | xor h => exact .xor (h.canonicalView hm)
  | @sto a h =>
    have hw := canonicalMemory_write hm (validAddr_lt h) (canonical_dec s.acc)
    have he : ((s.setAr a).writeCell a.toNat (dec s.acc)).advance.canonicalView =
        ((s.canonicalView.setAr a).writeCell a.toNat (dec s.acc)).advance :=
      congrArg (fun m => { s.canonicalView with ar := a, pc := s.pc + 1, mem := m }) hw
    rw [he]
    exact .sto h
  | @not o => cases o <;> exact .not
  | @inr o => cases o <;> exact .inr
  | @inp o _ h => cases o <;> exact .inp h
  | @fin o => cases o <;> exact .fin
  | @out o =>
    rw [callHook_canonicalView]
    cases o <;> exact .out
  | jum h hv => exact .jum h hv
  | juzTaken h hv hz => exact .juzTaken h hv hz
  | juzNotTaken h hv hz => exact .juzNotTaken h hv hz
  | @badAddress _ a hi hv => rw [raiseHere_canonicalView (s := s.setAr a) hm]; exact .badAddress hi hv
  | @noNumber _ a hi hv hd =>
    rw [raiseHere_canonicalView (s := s.setAr a) hm]
    exact .noNumber hi hv ((dataValue_canonicalView hm _).trans hd)
  | @badTarget _ _ a hi h hv => rw [raiseHere_canonicalView (s := s.setAr a) hm]; exact .badTarget hi h hv
  | unresolved hi h => rw [raiseHere_canonicalView hm]; exact .unresolved hi h
  | @unset o h =>
    rw [raiseHere_canonicalView (s := s.withSurplus o) (by simpa using hm), withSurplus_canonicalView]
    exact .unset h

/-- An instruction commutes with the canonical view, the `MUL` that hangs included. -/
theorem exec_canonicalView (i : Instr) (hm : s.mem.wf = true) : exec i s.canonicalView = canonicalOutcome (exec i s) := by
  rcases exec_cases i s with ⟨t, he⟩ | ⟨a, m, rfl, hcell, hle, he⟩
  · rw [he]
    exact exec_of_effect ((effect_of_exec he).canonicalView hm)
  · rw [he]
    exact exec_mul_hangs (hcell.canonicalView hm) hle

end Sys2Proof.Machine

open Sys2Proof Sys2Proof.Machine

/-- Settles O8: canonical text has the class of its line, with the operand token in canonical form, and what reads a line reads its
class. -/
theorem canonicalTextActsAlike : Obligations.CanonicalTextActsAlike := fun line =>
  ⟨canonical_of_empty, fun _ => canonical_of_data, fun _ => canonical_of_label, fun _ => canonical_of_mnemonic,
    fun _ _ => canonical_of_operand, fun _ _ _ _ => canonical_of_surplus, canonical_of_raw, fun _ => classify_canonical_eq_label,
    fun _ _ h => by rw [classify_canonical, h]; rfl, classify_canonical_of_no_operand, decodeFetched_canonical line,
    dataValue_canonical line, neededLabel_canonical line, canonical_idem line⟩

/-- Settles O9: the step cycle reads the fetched line through the decoder alone, and each instruction commutes with the view. -/
theorem canonicalTextIsInvisible : Obligations.CanonicalTextIsInvisible := by
  intro s hm
  have hdec : decodeFetched s.canonicalView.currentLine = decodeFetched s.currentLine := by
    rw [currentLine_canonicalView hm, decodeFetched_canonical]
  rcases step_cases s with ⟨hne, he⟩ | ⟨hr, hv, he⟩ | ⟨hr, hv, hd, he⟩ | ⟨e, hr, hv, hd, he⟩ | ⟨i, ⟨hr, hv, hd⟩, he⟩
  · rw [he, step_ended (s := s.canonicalView) hne]; rfl
  · rw [he, step_entryFault (s := s.canonicalView) hr hv]; rfl
  · rw [he, step_skip (s := s.canonicalView) hr hv (hdec.trans hd), fetch_canonicalView hm]; rfl
  · rw [he, step_reject (s := s.canonicalView) hr hv (hdec.trans hd), fetch_canonicalView hm]
    exact congrArg _ (raiseHere_canonicalView (s := s.fetch) hm _ _).symm
  · rw [he, step_run (s := s.canonicalView) ⟨hr, hv, hdec.trans hd⟩, fetch_canonicalView hm]
    exact exec_canonicalView (s := s.fetch) i hm

end

section
/-! The logic operations on ℤ (00_scope.md R7, decision D4): bit by bit Mathlib's, and the two sums, by induction on the bits. -/

namespace Sys2Proof.Machine

/-- Induction on the bits of two integers: from the four pairs of 0 and -1, whose bits are all alike, bit after bit. -/
theorem int_bits_induction {P : Int → Int → Prop}
    (base : ∀ a b : Int, a = 0 ∨ a = -1 → b = 0 ∨ b = -1 → P a b)
    (bits : ∀ (x y : Bool) (a b : Int), P a b → P (Int.bit x a) (Int.bit y b)) (a b : Int) : P a b := by
  induction hn : a.natAbs + b.natAbs using Nat.strong_induction_on generalizing a b with
  | _ n ih =>
    by_cases hbase : (a = 0 ∨ a = -1) ∧ (b = 0 ∨ b = -1)
    · exact base a b hbase.1 hbase.2
    · rw [← Int.bit_decomp a, ← Int.bit_decomp b]
      refine bits _ _ _ _ (ih _ ?_ _ _ rfl)
      rw [Int.div2_val, Int.div2_val]
      omega

/-- A sum is the bits where the two differ and twice the carries. -/
theorem add_eq_bitXor_add_two_mul_bitAnd (a b : Int) : a + b = bitXor a b + 2 * bitAnd a b := by
  refine int_bits_induction (P := fun a b => a + b = bitXor a b + 2 * bitAnd a b) ?_ (fun x y a b ih => ?_) a b
  · rintro a b (rfl | rfl) (rfl | rfl) <;> decide
  · rw [bitXor_eq_xor, bitAnd_eq_land] at ih ⊢
    rw [Int.lxor_bit, Int.land_bit]
    cases x <;> cases y <;> simp [Int.bit_val] <;> omega

/-- The bits that either has are those where the two differ and those that both have. -/
theorem bitOr_eq_bitXor_add_bitAnd (a b : Int) : bitOr a b = bitXor a b + bitAnd a b := by
  refine int_bits_induction (P := fun a b => bitOr a b = bitXor a b + bitAnd a b) ?_ (fun x y a b ih => ?_) a b
  · rintro a b (rfl | rfl) (rfl | rfl) <;> decide
  · rw [bitOr_eq_lor, bitXor_eq_xor, bitAnd_eq_land] at ih ⊢
    rw [Int.lor_bit, Int.lxor_bit, Int.land_bit]
    cases x <;> cases y <;> simp [Int.bit_val] <;> omega

end Sys2Proof.Machine

open Sys2Proof Sys2Proof.Machine

/-- Settles O29: the operations are Mathlib's on ℤ, and the two sums go by induction on the bits. -/
theorem logicIsInfiniteTwosComplement : Obligations.LogicIsInfiniteTwosComplement := by
  intro a b
  refine ⟨fun i => ?_, fun i => ?_, fun i => ?_, fun i => ?_, bitNot_eq a, add_eq_bitXor_add_two_mul_bitAnd a b,
    bitOr_eq_bitXor_add_bitAnd a b⟩
  · rw [bitAnd_eq_land, Int.testBit_land]
  · rw [bitOr_eq_lor, Int.testBit_lor]
  · rw [bitXor_eq_xor, Int.testBit_lxor]
  · rw [bitNot_eq_lnot, Int.testBit_lnot]

end

section
/-! The step cycle, clause by clause (40_step_cycle.md R90 to R97). -/

namespace Sys2Proof.Machine

variable {s : State} {line : Line}

theorem currentLine_valid (hv : validAddr s.pc = true) : s.currentLine = s.mem.read s.pc.toNat := lineAt_valid hv

/-- A step of a running engine inside memory: the fetch, and what the line asks for (R92 to R96). -/
theorem step_inside (hr : s.engine = .running) (hv : validAddr s.pc = true) :
    step s = s.fetch.perform (decodeFetched s.currentLine) := by
  simp [step, State.stepEngine, State.cycle, hr, hv]

/-- A step at a line that is passed over (R93, R94). -/
theorem step_skip_line (hr : s.engine = .running) (hv : validAddr s.pc = true) (hl : s.mem.read s.pc.toNat = line)
    (hd : decodeFetched line = .skip) : step s = .next { s with ir := line, pc := s.pc + 1 } := by
  obtain rfl : s.currentLine = line := (currentLine_valid hv).trans hl
  exact step_skip hr hv hd

/-- A step at a line that is rejected (R95, R96). -/
theorem step_reject_line {e : DecodeError} (hr : s.engine = .running) (hv : validAddr s.pc = true)
    (hl : s.mem.read s.pc.toNat = line) (hd : decodeFetched line = .reject e) :
    step s = .next { s with ir := line, engine := .faulted, fault := some ⟨causeOf e, s.pc, line⟩ } := by
  obtain rfl : s.currentLine = line := (currentLine_valid hv).trans hl
  exact step_reject hr hv hd

/-- A run of an ended engine changes nothing (R91 (a)). -/
theorem runFor_ended (h : s.Ended) (k : Nat) (request : Option Nat) : runFor k request s = .next s := by
  cases k with
  | zero => rfl
  | succ k =>
    cases he : s.engine with
    | running => exact absurd he h
    | finished => simp [runFor, he]
    | faulted => simp [runFor, he]

end Sys2Proof.Machine

open Sys2Proof Sys2Proof.Machine

/-- Settles O11: the cell at `PC` is what the step fetches. -/
theorem stepRunsTheDecodedInstruction : Obligations.StepRunsTheDecodedInstruction := by
  intro s i hr h0 hlt hd
  have hv : validAddr s.pc = true := validAddr_iff.2 ⟨h0, hlt⟩
  rw [← currentLine_valid hv] at hd ⊢
  exact step_run ⟨hr, hv, hd⟩

/-- Settles O12: neither a step nor a run does anything to an engine that is not running. -/
theorem stepOfAnEndedEngineIsNoOp : Obligations.StepOfAnEndedEngineIsNoOp :=
  fun _ h => ⟨step_ended h, runFor_ended h⟩

/-- Settles O13: the entry check fails, or the decoder rejects the line. -/
theorem unexecutableCellFaults : Obligations.UnexecutableCellFaults := by
  refine ⟨fun s hr hout => step_entryFault hr ?_, fun s line hr hv hl hc => step_reject_line (e := .invalidOpcode) hr hv hl ?_⟩
  · rw [Bool.eq_false_iff, ne_eq, validAddr_iff]
    omega
  · rcases hc with hc | hc <;> simp [decodeFetched, hc]

/-- Settles O14: lines of the two forms are of the two classes, and the decoder passes over both. -/
theorem labelAndCommentCellsAreSkipped : Obligations.LabelAndCommentCellsAreSkipped := by
  intro s line hr hv hl h
  have hclass : (∃ n, classify line = .label n) ∨ classify line = .comment line := by
    rcases h with h | h | ⟨cs, rest, h⟩ | ⟨n, hne, hcom, h⟩
    · exact .inl h
    · exact .inr h
    · exact .inr (LineForm.comment h rfl).classify_eq
    · exact .inl ⟨n, (LineForm.label h hne hcom).classify_eq⟩
  refine step_skip_line hr hv hl ?_
  rcases hclass with ⟨n, hc⟩ | hc <;> simp [decodeFetched, hc]

/-- Settles O15: a line that begins with an integer is a data line, or one with junk after it. -/
theorem dataCellsAreSkipped : Obligations.DataCellsAreSkipped := by
  intro s line u rest hr hv hl htok hi
  refine step_skip_line hr hv hl ?_
  cases rest with
  | nil => simp [decodeFetched, (LineForm.data htok hi).classify_eq]
  | cons v rest => simp [decodeFetched, (LineForm.dataJunk htok hi).classify_eq]

/-- Settles O16: the literal decoder fails where the operand tokens do not decode, which rejects the line, or where a jump's label
is not found, which is the first thing the jump does. -/
theorem decodeFailureFaultsTheStep : Obligations.DecodeFailureFaultsTheStep := by
  intro s m args hr hv hc
  have hlit := literalDecoderAgrees s.sym m args
  have hfetched := decodeFetched_instr hc
  cases hd : decodeInstr m args with
  | error e' =>
    rw [hd] at hlit hfetched
    obtain rfl := decodeInstr_error hd
    refine ⟨fun e he => ?_, fun b hb => ?_⟩
    · obtain rfl : DecodeError.invalidOperand = e := Except.error.inj (hlit.symm.trans he)
      exact ⟨_, .inl ⟨rfl, rfl⟩, step_reject hr hv hfetched⟩
    · cases hlit.symm.trans hb
  | ok i =>
    rw [hd] at hlit hfetched
    have hi : s.Fetches i := ⟨hr, hv, hfetched⟩
    refine ⟨fun e he => ?_, fun b hb => ?_⟩
    · obtain ⟨rfl, x, hx, hnone⟩ := bundleOf_error (hlit.symm.trans he)
      exact ⟨_, .inr ⟨rfl, rfl⟩, (step_run hi).trans (exec_of_effect (.unresolved hx hnone))⟩
    · obtain ⟨hop, hopnd⟩ := bundleOf_ok.1 (hlit.symm.trans hb)
      exact ⟨i, hi, step_run hi, hop, hopnd⟩

/-- Settles O36: the fetch overwrites `IR` before anything could read it. -/
theorem irIsReadByNothing : Obligations.IrIsReadByNothing := by
  intro s l hr hv
  rw [step_inside hr hv, step_inside (s := { s with ir := l }) hr hv]
  rfl

end

section
/-! The rule of each instruction: spelling, operand form, faults and the whole next state (41_data_transfer.md to 45_control.md). -/

namespace Sys2Proof.Machine

variable {m : Mnemonic} {spelling : Token} {op : BitVec 4}

/-! ## The three operand forms -/

theorem needsAddress {mk : Int → Instr} (h : ∀ args, decodeInstr m args = decodeAddr args mk) : NeedsAddress m mk :=
  ⟨fun args _ => by rw [h args]; exact decodeAddr_ok, fun _ _ => decodeInstr_error⟩

theorem needsTarget {mk : Target → Instr} (h : ∀ args, decodeInstr m args = decodeTarget args mk) : NeedsTarget m mk :=
  ⟨fun args _ => by rw [h args]; exact decodeTarget_ok, fun _ _ => decodeInstr_error⟩

theorem allowsSurplus {mk : Option Int → Instr} (h : ∀ args, decodeInstr m args = decodeSurplus args mk) : AllowsSurplus m mk :=
  ⟨fun args _ => by rw [h args]; exact decodeSurplus_ok, fun _ _ => decodeInstr_error⟩

/-! ## The rules of whole groups -/

theorem readFaults {mk : Int → Instr} (h : ∀ a, mk a ∈ cellReaders a) : ReadFaults mk :=
  fun _ a => ⟨fun hv => exec_of_effect (.badAddress (.inr (h a)) hv), fun hv hd => exec_of_effect (.noNumber (h a) hv hd)⟩

/-- The rule of a cell reader from its effect on a cell that holds an integer. -/
theorem readsCell {mk : Int → Instr} {effect : State → Int → State} (hs : SpelledAndNumbered m spelling op)
    (hd : ∀ args, decodeInstr m args = decodeAddr args mk) (hr : ∀ a, mk a ∈ cellReaders a)
    (he : ∀ s a v, s.CellHolds a v → Effect s (mk a) (effect { s with ar := a, pc := s.pc + 1 } v)) :
    ReadsCell m spelling op mk effect :=
  ⟨hs, needsAddress hd, readFaults hr, fun s a v h => exec_of_effect (he s a v h)⟩

/-- The rule of a format `Z` instruction that writes `ACC`, from its effect. -/
theorem worksOnAcc {mk : Option Int → Instr} {f : Int → Int} (hs : SpelledAndNumbered m spelling op)
    (hd : ∀ args, decodeInstr m args = decodeSurplus args mk)
    (he : ∀ s o, Effect s (mk o) ((s.withSurplus o).setAcc (f s.acc)).advance) : WorksOnAcc m spelling op mk f :=
  ⟨hs, allowsSurplus hd, fun s o => by rw [exec_of_effect (he s o), withSurplus_eq_setAr]; rfl⟩

/-- The two faults of a jump, which it takes whether or not it would be taken (45_control.md R153). -/
theorem jump_faults {i : Instr} {x : Target} (hi : i = .jum x ∨ i = .juz x) (s : State) :
    (∀ a, resolveTarget s.sym x = some a → validAddr a = false → FaultsWith i s .invalidAddress a a) ∧
    (resolveTarget s.sym x = none → FaultsWith i s .unresolvedLabel s.pc s.ar) :=
  ⟨fun _ hr hv => exec_of_effect (.badTarget hi hr hv), fun hr => exec_of_effect (.unresolved hi hr)⟩

/-- A configured hook adds one entry, what the host can read when it is called (50_host_interface.md R168). -/
theorem callHook_eq (s : State) :
    s.callHook = { s with hookCalls := s.hookCalls ++ (if s.hook then [s.view] else []) } := by
  by_cases hk : s.hook = true
  · rw [State.callHook, if_pos hk, if_pos hk]
  · rw [State.callHook, if_neg hk, if_neg hk, List.append_nil]

/-- The cells after a store: the addressed one holds the text of the value, every other its line (20_memory.md R46). -/
theorem read_write_dec {mem : Memory} (h : mem.wf = true) (a : Nat) (v : Int) :
    (mem.write a (dec v)).read a = dec v ∧ ∀ b, b ≠ a → (mem.write a (dec v)).read b = mem.read b :=
  ⟨by rw [Memory.read_write_wf h, if_pos rfl], fun b hb => by rw [Memory.read_write_wf h, if_neg hb]⟩

end Sys2Proof.Machine

open Sys2Proof Sys2Proof.Machine

/-- Settles O18, as a cell reader. -/
theorem lomLoadsThroughDr : Obligations.LomLoadsThroughDr := by
  unfold Obligations.LomLoadsThroughDr
  exact readsCell ⟨rfl, rfl⟩ (fun _ => rfl) (fun _ => by simp) fun _ _ _ h => .lom h

/-- Settles O19: the write keeps the canonical form, and decimal text reads back as data. -/
theorem stoStoresDecimalText : Obligations.StoStoresDecimalText := by
  refine ⟨⟨rfl, rfl⟩, needsAddress fun _ => rfl, fun s a hv => exec_of_effect (.badAddress (.inl rfl) hv), fun s a hv hm => ?_⟩
  obtain ⟨hsame, hother⟩ := read_write_dec hm a.toNat s.acc
  exact ⟨_, exec_of_effect (.sto hv), Memory.write_wf _ hm (validAddr_lt hv), hsame, (congrArg dataValue hsame).trans (dataValue_dec _), hother⟩

/-- Settles O20, as cell readers. -/
theorem addAndSubAreExact : Obligations.AddAndSubAreExact :=
  ⟨readsCell ⟨rfl, rfl⟩ (fun _ => rfl) (fun _ => by simp) fun _ _ _ h => .add h,
    readsCell ⟨rfl, rfl⟩ (fun _ => rfl) (fun _ => by simp) fun _ _ _ h => .sub h⟩

/-- Settles O21, by the closed form of the loop. -/
theorem mulAddsDrRepeatedly : Obligations.MulAddsDrRepeatedly :=
  ⟨⟨rfl, rfl⟩, needsAddress fun _ => rfl, readFaults fun _ => by simp, fun _ _ _ h =>
    ⟨fun hm => exec_of_effect (.mul h hm), exec_mul_hangs h⟩⟩

/-- Settles O22: the model's operations are Mathlib's on ℤ. -/
theorem andOrXorCombineWithTheCell : Obligations.AndOrXorCombineWithTheCell := by
  refine ⟨readsCell ⟨rfl, rfl⟩ (fun _ => rfl) (fun _ => by simp) fun s a v h => ?_,
    readsCell ⟨rfl, rfl⟩ (fun _ => rfl) (fun _ => by simp) fun s a v h => ?_,
    readsCell ⟨rfl, rfl⟩ (fun _ => rfl) (fun _ => by simp) fun s a v h => ?_⟩
  · rw [← bitAnd_eq_land]; exact .and h
  · rw [← bitOr_eq_lor]; exact .or h
  · rw [← bitXor_eq_xor]; exact .xor h

/-- Settles O23; the complement is `-ACC - 1` in the infinite two's complement. -/
theorem inrAndNotWorkOnAcc : Obligations.InrAndNotWorkOnAcc :=
  ⟨worksOnAcc ⟨rfl, rfl⟩ (fun _ => rfl) fun _ _ => .inr,
    worksOnAcc ⟨rfl, rfl⟩ (fun _ => rfl) fun s _ => bitNot_eq s.acc ▸ .not⟩

/-- Settles O24; a surplus operand goes to `AR` in both cases. -/
theorem inpCopiesInpr : Obligations.InpCopiesInpr := by
  refine ⟨⟨rfl, rfl⟩, allowsSurplus fun _ => rfl, fun s o => ⟨fun v h => ?_, fun h => ?_⟩⟩
  · rw [exec_inp_set s o h, withSurplus_eq_setAr]; rfl
  · rw [FaultsWith, exec_inp_unset s o h, withSurplus_eq_setAr]; rfl

/-- Settles O25: the hook is called, if there is one, after `PC` has advanced. -/
theorem outEmitsAndCallsTheHook : Obligations.OutEmitsAndCallsTheHook := by
  refine ⟨⟨rfl, rfl⟩, allowsSurplus fun _ => rfl, fun s o => ?_⟩
  rw [exec_out, withSurplus_eq_setAr, callHook_eq]
  rfl

/-- Settles O26: a target in memory is jumped to, and the other two outcomes are the faults of every jump. -/
theorem jumJumps : Obligations.JumJumps :=
  ⟨⟨rfl, rfl⟩, needsTarget fun _ => rfl, fun s _ => ⟨fun _ hr hv => exec_of_effect (.jum hr hv), jump_faults (.inl rfl) s⟩⟩

/-- Settles O27: the target is checked first, and then `ACC` decides. -/
theorem juzJumpsOnZero : Obligations.JuzJumpsOnZero := by
  refine ⟨⟨rfl, rfl⟩, needsTarget fun _ => rfl, fun s _ => ⟨fun a hr hv => ?_, jump_faults (.inr rfl) s⟩⟩
  by_cases hz : s.acc = 0
  · rw [if_pos hz]; exact exec_of_effect (.juzTaken hr hv hz)
  · rw [if_neg hz]; exact exec_of_effect (.juzNotTaken hr hv hz)

/-- Settles O28: a finished engine does not step. -/
theorem finFinishes : Obligations.FinFinishes := by
  refine ⟨⟨rfl, rfl⟩, allowsSurplus fun _ => rfl, fun s o => ⟨_, exec_fin s o, ?_, step_ended (by simp)⟩⟩
  rw [withSurplus_eq_setAr]
  rfl

end

section
/-! The frames: what each instruction and each step leaves unchanged (10_state.md R11 to R23), and how a step ends. -/

namespace Sys2Proof.Machine

variable {s t : State} {i : Instr}

/-! ## What an instruction leaves unchanged, by its mnemonic -/

theorem Effect.acc_eq (h : Effect s i t)
    (hm : i.mnemonic ∉ [Mnemonic.LOM, .ADD, .SUB, .MUL, .AND, .OR, .XOR, .NOT, .INR, .INP]) : t.acc = s.acc := by
  cases h with
  | lom | add | sub | mul | and | or | xor | not | inr | inp => exact absurd (by simp [Instr.mnemonic]) hm
  | _ => simp

theorem Effect.dr_eq (h : Effect s i t) (hm : i.mnemonic ≠ .LOM) : t.dr = s.dr := by
  by_contra hne
  obtain ⟨a, rfl, -⟩ := h.eq_lom_of_dr_ne hne
  exact hm rfl

theorem Effect.ctr_eq (h : Effect s i t) (hm : i.mnemonic ≠ .MUL) : t.ctr = s.ctr := by
  by_contra hne
  obtain ⟨a, rfl⟩ := h.eq_mul_of_ctr_ne hne
  exact hm rfl

theorem Effect.mem_eq (h : Effect s i t) (hm : i.mnemonic ≠ .STO) : t.mem = s.mem := by
  by_contra hne
  obtain ⟨a, rfl⟩ := h.eq_sto_of_mem_ne hne
  exact hm rfl

theorem Effect.output_eq (h : Effect s i t) (hm : i.mnemonic ≠ .OUT) :
    t.outr = s.outr ∧ t.outTrace = s.outTrace ∧ t.hookCalls = s.hookCalls := by
  cases h with
  | out => exact absurd rfl hm
  | _ => simp

/-- A fault writes at most `AR` besides `STATE` and the record (60_exceptions.md R187). -/
theorem TakesFault.eq_raised (h : TakesFault s t) : t = { s with ar := t.ar, engine := .faulted, fault := t.fault } := by
  cases h <;> rfl

theorem TakesFault.acc_pc_eq (h : TakesFault s t) : t.acc = s.acc ∧ t.pc = s.pc := by
  cases h <;> exact ⟨rfl, rfl⟩

/-- An instruction other than `FIN` leaves `STATE` and `FAULT` alone, or faults, and then it leaves `ACC` and `PC` alone. -/
theorem Effect.engine_cases (h : Effect s i t) (hm : i.mnemonic ≠ .FIN) :
    t.engine = s.engine ∧ t.fault = s.fault ∨ t.engine = .faulted ∧ t.acc = s.acc ∧ t.pc = s.pc := by
  rcases h.ends with hf | ⟨⟨o, rfl⟩, -⟩ | ⟨-, he⟩
  · exact .inr ⟨hf.engine_eq, hf.acc_pc_eq⟩
  · exact absurd rfl hm
  · exact .inl he

/-- A store leaves every cell but the one it addresses, and all of them when its address is outside memory. -/
theorem Effect.read_eq_of_sto {a : Int} (h : Effect s (.sto a) t) {b : Nat} (hb : validAddr a = true → b ≠ a.toNat) :
    t.mem.read b = s.mem.read b := by
  rcases h.mem_cases with he | ⟨a', hi, hv, he⟩
  · rw [he]
  · cases hi
    rw [he, Memory.read_write_ne _ _ (hb hv)]

theorem mnemonic_of_mem_cellReaders {a : Int} (h : i ∈ cellReaders a) :
    i.mnemonic ∈ [Mnemonic.LOM, .ADD, .SUB, .MUL, .AND, .OR, .XOR] := by
  rcases mem_cellReaders h with rfl | rfl | rfl | rfl | rfl | rfl | rfl <;> simp [Instr.mnemonic]

/-! ## What an instruction does to `PC` -/

theorem Effect.jum_target {x : Target} (h : Effect s (.jum x) t) (hok : t.engine ≠ .faulted) :
    resolveTarget s.sym x = some t.pc := by
  cases h with
  | jum h => exact h
  | _ => exact absurd rfl hok

theorem Effect.juz_target {x : Target} (h : Effect s (.juz x) t) (hok : t.engine ≠ .faulted) :
    if s.acc = 0 then resolveTarget s.sym x = some t.pc else t.pc = s.pc + 1 := by
  cases h with
  | juzTaken h _ hz => rw [if_pos hz]; exact h
  | juzNotTaken _ _ hz => rw [if_neg hz]; rfl
  | _ => exact absurd rfl hok

theorem Effect.fin_pc {o : Option Int} (h : Effect s (.fin o) t) : t.pc = s.pc := by
  cases h <;> simp

/-- Every instruction that completes and is no `JUM`, `JUZ` or `FIN` adds 1 to `PC` (40_step_cycle.md R99). -/
theorem Effect.pc_advances (h : Effect s i t) (hok : t.engine ≠ .faulted) (hm : i.mnemonic ∉ [Mnemonic.JUM, .JUZ, .FIN]) :
    t.pc = s.pc + 1 := by
  cases h with
  | jum | juzTaken | juzNotTaken | fin => exact absurd (by simp [Instr.mnemonic]) hm
  | badAddress | noNumber | badTarget | unresolved | unset => exact absurd rfl hok
  | _ => simp

theorem mnemonic_eq_fin : i.mnemonic = .FIN ↔ ∃ o, i = .fin o := by
  cases i <;> simp [Instr.mnemonic]

/-! ## The memory of an accepted program -/

theorem load_mem_wf {lines : List Line} {init : Init} (h : load lines init = .ok s) : s.mem.wf = true := by
  obtain ⟨hlen, sym, -, -, rfl⟩ := load_ok_iff.1 h
  exact memoryOf_wf hlen

/-- Line `k` of an accepted program stands in cell `k`, and the cells after the last line are empty (70_reset_and_hazards.md R210). -/
theorem load_read {lines : List Line} {init : Init} (h : load lines init = .ok s) (k : Nat) :
    s.mem.read k = (lines[k]?).getD [] := by
  obtain ⟨-, sym, -, -, rfl⟩ := load_ok_iff.1 h
  have hread := memoryOf_read lines 0 k
  rw [Nat.zero_add] at hread
  exact hread

/-! ## What a step does -/

/-- Memory after a step: as it was, or with the text of `ACC` in the cell that the fetched `STO` addresses. -/
theorem step_mem_cases (h : step s = .next t) :
    t.mem = s.mem ∨ ∃ a, s.Fetches (.sto a) ∧ validAddr a = true ∧ t.mem = s.mem.write a.toNat (dec s.acc) := by
  by_cases he : t.mem = s.mem
  · exact .inl he
  · obtain ⟨i, hi, heff⟩ := effect_of_step_changes (f := State.mem) (fun _ _ _ _ _ => rfl) h he
    rcases heff.mem_cases with he' | ⟨a, rfl, hv, hw⟩
    · exact absurd he' he
    · exact .inr ⟨a, hi, hv, hw⟩

theorem step_launch_eq (h : step s = .next t) : t.inpr = s.inpr ∧ t.sym = s.sym ∧ t.hook = s.hook := by
  have heq : (t.inpr, t.sym, t.hook) = (s.inpr, s.sym, s.hook) := by
    by_contra hne
    obtain ⟨i, -, he⟩ := effect_of_step_changes (f := fun s => (s.inpr, s.sym, s.hook)) (fun _ _ _ _ _ => rfl) h hne
    obtain ⟨hi, hs, hk⟩ := he.launch_eq
    exact hne (by rw [hi, hs, hk]; rfl)
  simpa using heq

/-- A step answers a next state, or it is that of a `MUL` whose multiplier cell holds zero or less, and hangs. -/
theorem step_next_or_hangs (s : State) : (∃ t, step s = .next t) ∨
    (∃ a m, s.Fetches (.mul a) ∧ s.CellHolds a m ∧ m ≤ 0) ∧ step s = .fault .hang := by
  rcases step_cases s with ⟨-, he⟩ | ⟨-, -, he⟩ | ⟨-, -, -, he⟩ | ⟨e, -, -, -, he⟩ | ⟨i, hi, he⟩
  · exact .inl ⟨_, he⟩
  · exact .inl ⟨_, he⟩
  · exact .inl ⟨_, he⟩
  · exact .inl ⟨_, he⟩
  · rcases exec_cases i s.fetch with ⟨t, hx⟩ | ⟨a, m, rfl, hcell, hm, hx⟩
    · exact .inl ⟨t, he.trans hx⟩
    · exact .inr ⟨⟨a, m, hi, hcell, hm⟩, he.trans hx⟩

/-- The record of an instruction's fault: the line at `PC` and, by the cause, the address `PC` or `AR` (60_exceptions.md R180). -/
theorem TakesFault.record (h : TakesFault s t) : ∃ r, t.fault = some r ∧ r.line = s.currentLine ∧
    (r.cause ∈ [Cause.invalidOpcode, .unresolvedLabel, .invalidOperand] → r.address = s.pc ∧ t.ar = s.ar) ∧
    (r.cause = .unsetInput → r.address = s.pc) ∧ (r.cause = .nonNumericCell → r.address = t.ar) ∧
    (r.cause = .invalidAddress → r.address = t.ar) := by
  cases h <;> exact ⟨_, rfl, rfl, by simp, by simp, by simp, by simp⟩

end Sys2Proof.Machine

open Sys2Proof Sys2Proof.Machine

/-- Settles O30: an effect that changes `ACC` is that of one of the ten. -/
theorem accHasTenWriters : Obligations.AccHasTenWriters := by
  intro s t h hne
  obtain ⟨i, hi, he⟩ := effect_of_step_changes (f := State.acc) (fun _ _ _ _ _ => rfl) h hne
  exact ⟨i, hi, by_contra fun hm => hne (he.acc_eq hm)⟩

/-- Settles O34: what differs after a step was written by an effect, and none writes these three. -/
theorem stepsLeaveInprSymAndHook : Obligations.StepsLeaveInprSymAndHook := fun _ _ => step_launch_eq

/-- Settles O37: load lays the lines out, and the one write of a step is that of a fetched `STO`. -/
theorem onlyStoWritesMemory : Obligations.OnlyStoWritesMemory := by
  refine ⟨fun lines init s h => ?_, fun s t h => ⟨fun hm => ?_, by simp [HostView.readMemory], fun b hb => ?_⟩⟩
  · exact ⟨load_mem_wf h, load_read h⟩
  · rcases step_mem_cases h with he | ⟨a, -, hv, he⟩
    · rw [he, hm]
    · rw [he]; exact Memory.write_wf _ hm (validAddr_lt hv)
  · rcases step_mem_cases h with he | ⟨a, hi, hv, he⟩
    · exact absurd (by rw [he]) hb
    · have hba : b = a.toNat := by_contra fun hne => hb (by rw [he, Memory.read_write_ne _ _ hne])
      exact ⟨a, hi, hv, hba, by rw [he, hba, Memory.read_write_same _ _ (dec_ne_nil s.acc)]⟩

/-- Settles O38, mnemonic by mnemonic; past the last cell the next step fails its entry check. -/
theorem handlersSequencePc : Obligations.HandlersSequencePc := by
  intro i s t hr h hok
  have he : Effect s i t := effect_of_exec h
  refine ⟨?_, ?_, fun hm => ?_, he.pc_advances hok, fun hm hk => ?_, fun hrun hpc => ?_⟩
  · rintro x rfl; exact he.jum_target hok
  · rintro x rfl; exact he.juz_target hok
  · obtain ⟨o, rfl⟩ := mnemonic_eq_fin.1 hm
    exact he.fin_pc
  · obtain ⟨o, rfl⟩ := mnemonic_eq_out.1 hm
    cases h
    simp [hk]
  · exact ⟨_, step_entryFault hrun (by rw [hpc]; rfl), rfl, rfl⟩

/-- Settles O39: none of the seven is a writer of memory, of the output or of `STATE`. -/
theorem frameOfCellReaders : Obligations.FrameOfCellReaders := by
  intro i a s t hi h
  have he : Effect s i t := effect_of_exec h
  have hm : i.mnemonic ≠ .STO ∧ i.mnemonic ≠ .OUT ∧ i.mnemonic ≠ .FIN := by
    have hin := mnemonic_of_mem_cellReaders hi
    refine ⟨?_, ?_, ?_⟩ <;> intro hm <;> simp [hm] at hin
  have har : t.ar = a := by rw [he.ar_eq, carriedOperand_of_address (.inr hi), Option.getD_some]
  obtain ⟨hinpr, hsym, hhook⟩ := he.launch_eq
  obtain ⟨houtr, htrace, hcalls⟩ := he.output_eq hm.2.1
  exact ⟨har, he.ir_eq, hinpr, houtr, hsym, htrace, hhook, hcalls, fun b => by rw [he.mem_eq hm.1], he.dr_eq, he.ctr_eq,
    he.engine_cases hm.2.2⟩

/-- Settles O40: `STO` is the writer of memory and of nothing else but `AR` and `PC`. -/
theorem frameOfStore : Obligations.FrameOfStore := by
  intro a s t h
  have he : Effect s (.sto a) t := effect_of_exec h
  have har : t.ar = a := by rw [he.ar_eq, carriedOperand_of_address (.inl rfl), Option.getD_some]
  obtain ⟨hinpr, hsym, hhook⟩ := he.launch_eq
  obtain ⟨houtr, htrace, hcalls⟩ := he.output_eq (by simp [Instr.mnemonic])
  have hend := he.engine_cases (by simp [Instr.mnemonic])
  exact ⟨har, he.acc_eq (by simp [Instr.mnemonic]), he.ir_eq, he.dr_eq (by simp [Instr.mnemonic]),
    he.ctr_eq (by simp [Instr.mnemonic]), hinpr, houtr, hsym, htrace, hhook, hcalls, fun _ => he.read_eq_of_sto,
    hend.imp_right fun hf => ⟨hf.1, hf.2.2⟩⟩

/-- Settles O41: none of the seven is a writer of `DR`, `CTR` or memory. -/
theorem frameOfRegisterForms : Obligations.FrameOfRegisterForms := by
  intro i s t hin h
  have he : Effect s i t := effect_of_exec h
  have hm : i.mnemonic ≠ .LOM ∧ i.mnemonic ≠ .MUL ∧ i.mnemonic ≠ .STO := by
    refine ⟨?_, ?_, ?_⟩ <;> intro hm <;> simp [hm] at hin
  obtain ⟨hinpr, hsym, hhook⟩ := he.launch_eq
  refine ⟨fun o ho => ?_, he.ir_eq, he.dr_eq hm.1, he.ctr_eq hm.2.1, hinpr, hsym, hhook, fun b => by rw [he.mem_eq hm.2.2],
    fun hacc => he.acc_eq fun hw => ?_, he.output_eq, ?_⟩
  · rw [he.ar_eq, carriedOperand, ho]
    rfl
  · simp only [List.mem_cons, List.not_mem_nil, or_false] at hin hacc hw
    rcases hin with hi | hi | hi | hi | hi | hi | hi <;> simp [hi] at hacc hw
  · rcases he.ends with hf | ⟨⟨o, rfl⟩, -, hfault⟩ | ⟨-, heng, hfault⟩
    · exact .inr ⟨hf.engine_eq, hf.acc_pc_eq⟩
    · exact .inl ⟨hfault, fun hne => absurd rfl hne⟩
    · exact .inl ⟨hfault, fun _ => heng⟩

/-- Settles O42: a step faults at the entry check, at a rejected line, or in an instruction. -/
theorem faultingStepIsPrecise : Obligations.FaultingStepIsPrecise := by
  intro s t hr h ht
  rcases step_cases s with ⟨hne, -⟩ | ⟨-, hv, he⟩ | ⟨-, hv, -, he⟩ | ⟨e, -, hv, hd, he⟩ | ⟨i, ⟨-, hv, -⟩, he⟩
  · exact absurd hr hne
  · rw [he] at h; cases h
    refine ⟨rfl, by simp [hv], _, rfl, ?_, by simp, by simp, by simp, by simp [hv]⟩
    simp [State.currentLine, State.lineAt, hv]
  · rw [he] at h; cases h
    simp [hr] at ht
  · rw [he] at h; cases h
    refine ⟨rfl, by simp [hv], _, rfl, rfl, fun _ => ⟨rfl, rfl⟩, ?_, ?_, ?_⟩ <;>
      rcases decodeFetched_reject hd with rfl | rfl <;> simp [causeOf]
  · rcases (effect_of_exec (he ▸ h)).ends with hf | ⟨-, hfin, -⟩ | ⟨-, hsame, -⟩
    · have hraised := hf.eq_raised
      obtain ⟨r, hrec, hline, hpc, hin, hnum, haddr⟩ := hf.record
      refine ⟨?_, ?_, r, hrec, hline, hpc, hin, hnum, fun hc => by rw [if_pos hv]; exact haddr hc⟩
      · rw [hraised]; rfl
      · rw [hraised, if_pos hv]; rfl
    · rw [hfin] at ht; cases ht
    · rw [hsame, State.fetch_engine, hr] at ht; cases ht

/-- Settles O43: the step cycle always answers a next state, and of the instructions `MUL` alone may not. -/
theorem onlyMulHangs : Obligations.OnlyMulHangs := by
  intro s
  have hhang : (∀ t, step s ≠ .next t) →
      (∃ a m, s.Fetches (.mul a) ∧ s.CellHolds a m ∧ m ≤ 0) ∧ step s = .fault .hang := fun hno =>
    (step_next_or_hangs s).resolve_left fun ⟨t, he⟩ => hno t he
  refine ⟨⟨fun hno => (hhang hno).1, ?_⟩, fun hno => (hhang hno).2, fun r hre => ?_⟩
  · rintro ⟨a, m, hi, hcell, hm⟩ t he
    rw [step_run hi, exec_mul_hangs (s := s.fetch) hcell hm] at he
    cases he
  · rcases step_next_or_hangs s with ⟨t, he⟩ | ⟨-, he⟩ <;> rw [he] at hre <;> cases hre

/-- Settles O44: of all that a step can do, only a `FIN` leaves the engine finished. -/
theorem onlyFinFinishes : Obligations.OnlyFinFinishes := by
  refine fun s t hr h => ⟨fun ht => ?_, fun ⟨o, hi⟩ => ?_⟩
  · rcases step_cases s with ⟨hne, -⟩ | ⟨-, -, he⟩ | ⟨-, -, -, he⟩ | ⟨e, -, -, -, he⟩ | ⟨i, hi, he⟩
    · exact absurd hr hne
    · rw [he] at h; cases h; cases ht
    · rw [he] at h; cases h; simp [hr] at ht
    · rw [he] at h; cases h; cases ht
    · rcases (effect_of_exec (he ▸ h)).ends with hf | ⟨⟨o, rfl⟩, -⟩ | ⟨-, hsame, -⟩
      · rw [hf.engine_eq] at ht; cases ht
      · exact ⟨o, hi⟩
      · rw [hsame, State.fetch_engine, hr] at ht; cases ht
  · rw [step_run hi, exec_fin] at h
    cases h
    rfl

end

section
/-! Runs: they compose, stay ended, and end at a request between two steps (40_step_cycle.md R102, 50_host_interface.md R165, R167). -/

namespace Sys2Proof.Machine

variable {s t : State}

/-- What a run finds at a state: it has ended, or there is a step, which answers a next state or hangs. -/
theorem run_cases (s : State) :
    s.Ended ∨ (s.engine = .running ∧ ∃ t, step s = .next t) ∨ (s.engine = .running ∧ step s = .fault .hang) := by
  by_cases hr : s.engine = .running
  · rcases step_next_or_hangs s with he | ⟨-, he⟩
    · exact .inr (.inl ⟨hr, he⟩)
    · exact .inr (.inr ⟨hr, he⟩)
  · exact .inl hr

/-- A run goes on from where a shorter one has come. -/
theorem runFor_add_of_next {j : Nat} (h : runFor j none s = .next t) (k : Nat) : runFor (j + k) none s = runFor k none t := by
  induction j generalizing s with
  | zero => cases h; rw [Nat.zero_add]
  | succ j ih =>
    rcases run_cases s with hend | ⟨hr, u, he⟩ | ⟨hr, he⟩
    · rw [runFor_ended hend] at h; cases h
      rw [runFor_ended hend, runFor_ended hend]
    · rw [runFor_next hr he] at h
      rw [Nat.succ_add, runFor_next hr he]
      exact ih h
    · rw [runFor_stopped hr he] at h; cases h

/-- More fuel does not help a run that hangs. -/
theorem runFor_add_of_fault {j : Nat} {r : Fault} (h : runFor j none s = .fault r) (k : Nat) : runFor (j + k) none s = .fault r := by
  induction j generalizing s with
  | zero => cases h
  | succ j ih =>
    rcases run_cases s with hend | ⟨hr, u, he⟩ | ⟨hr, he⟩
    · rw [runFor_ended hend] at h; cases h
    · rw [runFor_next hr he] at h
      rw [Nat.succ_add, runFor_next hr he]
      exact ih h
    · rw [runFor_stopped hr he] at h
      rw [Nat.succ_add, runFor_stopped hr he, h]

theorem forceFinish_eq (s : State) :
    s.forceFinish = { s with engine := if s.engine = .running then .finished else s.engine } := by
  by_cases hr : s.engine = .running
  · rw [State.forceFinish_running hr, if_pos hr]; rfl
  · rw [State.forceFinish_ended hr, if_neg hr]

/-- A request during step `j + 1` finishes the state after `j + 1` steps, whatever fuel is left. -/
theorem runFor_request_of_next {j : Nat} (h : runFor (j + 1) none s = .next t) (k : Nat) :
    runFor (j + 1 + k) (some j) s = .next t.forceFinish := by
  induction j generalizing s with
  | zero =>
    rw [Nat.add_right_comm]
    rcases run_cases s with hend | ⟨hr, u, he⟩ | ⟨hr, he⟩
    · rw [runFor_ended hend] at h; cases h
      rw [runFor_ended hend, State.forceFinish_ended hend]
    · rw [runFor_next hr he] at h ⊢; cases h
      rfl
    · rw [runFor_stopped hr he] at h; cases h
  | succ j ih =>
    rw [Nat.add_right_comm]
    rcases run_cases s with hend | ⟨hr, u, he⟩ | ⟨hr, he⟩
    · rw [runFor_ended hend] at h; cases h
      rw [runFor_ended hend, State.forceFinish_ended hend]
    · rw [runFor_next hr he] at h ⊢
      exact ih h
    · rw [runFor_stopped hr he] at h; cases h

/-- A request breaks no step that hangs before it is honoured. -/
theorem runFor_request_of_fault {j : Nat} {r : Fault} (h : runFor (j + 1) none s = .fault r) (k : Nat) :
    runFor (j + 1 + k) (some j) s = .fault r := by
  induction j generalizing s with
  | zero =>
    rw [Nat.add_right_comm]
    rcases run_cases s with hend | ⟨hr, u, he⟩ | ⟨hr, he⟩
    · rw [runFor_ended hend] at h; cases h
    · rw [runFor_next hr he] at h; cases h
    · rw [runFor_stopped hr he] at h
      rw [runFor_stopped hr he, h]
  | succ j ih =>
    rw [Nat.add_right_comm]
    rcases run_cases s with hend | ⟨hr, u, he⟩ | ⟨hr, he⟩
    · rw [runFor_ended hend] at h; cases h
    · rw [runFor_next hr he] at h ⊢
      exact ih h
    · rw [runFor_stopped hr he] at h
      rw [runFor_stopped hr he, h]

/-- Before the step it comes in, a request changes nothing. -/
theorem runFor_request_of_le {i j : Nat} (h : i ≤ j) (s : State) : runFor i (some j) s = runFor i none s := by
  induction i generalizing j s with
  | zero => rfl
  | succ i ih =>
    obtain ⟨j, rfl⟩ : ∃ k, j = k + 1 := ⟨j - 1, by omega⟩
    rcases run_cases s with hend | ⟨hr, u, he⟩ | ⟨hr, he⟩
    · rw [runFor_ended hend, runFor_ended hend]
    · rw [runFor_next hr he, runFor_next hr he]
      exact ih (by omega) u
    · rw [runFor_stopped hr he, runFor_stopped hr he]

end Sys2Proof.Machine

open Sys2Proof Sys2Proof.Machine

/-- Settles O45: an ended run is one that goes on with no effect. -/
theorem runsComposeAndStay : Obligations.RunsComposeAndStay := by
  refine ⟨fun s k hr => ⟨fun u he => runFor_next hr he k none, fun r he request => runFor_stopped hr he k request⟩, fun j k s u => ?_⟩
  refine ⟨fun h => runFor_add_of_next h k, fun h hend => ?_, fun r h => runFor_add_of_fault h k⟩
  rw [runFor_add_of_next h k, runFor_ended hend]

/-- Settles O46, by induction on the number of steps before the request. -/
theorem forceFinishEndsARunBetweenSteps : Obligations.ForceFinishEndsARunBetweenSteps :=
  fun _ k s => ⟨fun u h => forceFinish_eq u ▸ runFor_request_of_next h k, fun _ h => runFor_request_of_fault h k,
    fun _ h => runFor_request_of_le h s⟩

end

section
/-! Load and reset: which programs are accepted, and the state they launch (70_reset_and_hazards.md R210 to R214). -/

namespace Sys2Proof.Machine

variable {lines : List Line} {init : Init} {sym : SymbolTable}

/-- The prepass binds labels to cells of the program. -/
theorem buildSymbols_mem {sym' : SymbolTable} {i : Nat} (h : buildSymbols sym i lines = .ok sym') {e : Token × Nat}
    (he : e ∈ sym') : e ∈ sym ∨ e.2 < i + lines.length := by
  induction lines generalizing sym i with
  | nil => cases h; exact .inl he
  | cons l rest ih =>
    rw [List.length_cons]
    rcases buildSymbols_cons sym i l rest with ⟨-, hb⟩ | ⟨n, -, -, hb⟩ | ⟨n, -, -, hb⟩
    · exact (ih (hb ▸ h)).imp_right (by omega)
    · rcases ih (hb ▸ h) with hs | hlt
      · rcases List.mem_append.1 hs with hold | hnew
        · exact .inl hold
        · rw [List.mem_singleton.1 hnew]
          exact .inr (by simp)
      · exact .inr (by omega)
    · rw [hb] at h; cases h

/-- The table of a program binds a label exactly to the line that defines it. -/
theorem buildSymbols_nil_lookup (h : buildSymbols [] 0 lines = .ok sym) (n : Token) (k : Nat) :
    lookupLabel sym n = some k ↔ ∃ l, lines[k]? = some l ∧ classify l = .label n := by
  rw [buildSymbols_lookup h]
  simp [lookupLabel]

theorem buildSymbols_nil_lookup_ne_none (h : buildSymbols [] 0 lines = .ok sym) (n : Token) :
    lookupLabel sym n ≠ none ↔ ∃ l ∈ lines, classify l = .label n := by
  simp only [Option.ne_none_iff_exists', buildSymbols_nil_lookup h, List.mem_iff_getElem?]
  constructor
  · rintro ⟨k, l, hl, hc⟩; exact ⟨l, ⟨k, hl⟩, hc⟩
  · rintro ⟨l, ⟨k, hl⟩, hc⟩; exact ⟨k, l, hl, hc⟩

theorem inv_of_load {s : State} (h : load lines init = .ok s) : s.Inv := by
  have hwf := load_mem_wf h
  obtain ⟨hlen, sym, hb, -, rfl⟩ := load_ok_iff.1 h
  refine ⟨hwf, le_refl _, Int.natCast_nonneg _, by simp [launch], rfl, fun _ => rfl, fun _ => rfl, by simp [launch], fun e he => ?_⟩
  rcases buildSymbols_mem hb he with hnil | hlt
  · cases hnil
  · omega

/-- Load rejects a program for its size exactly when it has more lines than there are cells (R211). -/
theorem load_tooLarge_iff : load lines init = .error .programTooLarge ↔ Config.memSize < lines.length := by
  unfold load
  by_cases hl : Config.memSize < lines.length
  · simp [hl]
  · rw [if_neg hl]
    cases hb : buildSymbols [] 0 lines with
    | error e =>
      obtain ⟨n, k, rfl⟩ := buildSymbols_error hb
      simp [hl]
    | ok sym =>
      cases hf : findUndefined sym 0 lines with
      | some e =>
        obtain ⟨n, k, rfl⟩ := findUndefined_some hf
        simp [hf, hl]
      | none => simp [hf, hl]

/-- The prepass of a whole program succeeds exactly when no label is defined twice (R213). -/
theorem buildSymbols_nil_ok_iff (lines : List Line) : (∃ sym, buildSymbols [] 0 lines = .ok sym) ↔
    ∀ (i j : Nat) (k l : Line) (n : Token), lines[i]? = some k → lines[j]? = some l →
      classify k = .label n → classify l = .label n → i = j := by
  rw [buildSymbols_ok_iff]
  exact ⟨fun h => h.2, fun h => ⟨fun _ _ _ _ _ => rfl, h⟩⟩

/-- The check of a program passes exactly when every jump line with a name for its operand finds a line of that label (R213). -/
theorem findUndefined_of_prepass (h : buildSymbols [] 0 lines = .ok sym) : findUndefined sym 0 lines = none ↔
    ∀ l ∈ lines, ∀ m u, m ∈ [Mnemonic.JUM, .JUZ] → classify l = .instr m [u] → isInt u = false →
      ∃ k ∈ lines, classify k = .label u := by
  simp only [findUndefined_none_iff, neededLabel_eq_some, buildSymbols_nil_lookup_ne_none h]
  exact ⟨fun hall l hl m u hm hc hi => hall l hl u ⟨m, hm, hc, hi⟩, fun hall l hl u ⟨m, hm, hc, hi⟩ => hall l hl m u hm hc hi⟩

end Sys2Proof.Machine

open Sys2Proof Sys2Proof.Machine

/-- Settles O49: the launch state meets each clause, and the prepass binds labels to cells of the program. -/
theorem loadMeetsTheInvariant : Obligations.LoadMeetsTheInvariant :=
  fun _ _ _ h => ⟨inv_of_load h, labelsResolve_of_load h⟩

/-- Settles O48: reset is the load of the program of no lines. -/
theorem resetMeetsTheInvariant : Obligations.ResetMeetsTheInvariant :=
  ⟨inv_of_load (lines := []) (init := {}) rfl, rfl, rfl, rfl, rfl, rfl, fun _ => rfl⟩

/-- Settles O51: the other two errors of load have other names, and the first cell of the program of no lines is empty. -/
theorem programTooLargeIsRejected : Obligations.ProgramTooLargeIsRejected :=
  ⟨fun _ _ => load_tooLarge_iff, fun init => ⟨launch [] [] init, rfl, fun _ => rfl,
    step_reject_line (e := .invalidOpcode) rfl rfl rfl rfl⟩⟩

/-- Settles O52: the three checks of load in turn. -/
theorem loadAcceptsExactlyTheValidPrograms : Obligations.LoadAcceptsExactlyTheValidPrograms := by
  intro lines init
  simp only [load_ok_iff]
  constructor
  · rintro ⟨s, hlen, sym, hb, hf, -⟩
    exact ⟨hlen, (buildSymbols_nil_ok_iff lines).1 ⟨sym, hb⟩, (findUndefined_of_prepass hb).1 hf⟩
  · rintro ⟨hlen, hdup, hjump⟩
    obtain ⟨sym, hb⟩ := (buildSymbols_nil_ok_iff lines).2 hdup
    exact ⟨_, hlen, sym, hb, (findUndefined_of_prepass hb).2 hjump, rfl⟩

/-- Settles O53: the prepass binds each label to its own line, and the registers are those of `launch`. -/
theorem loadBuildsTheLaunchState : Obligations.LoadBuildsTheLaunchState := by
  intro lines init s h
  have hread := load_read h
  obtain ⟨-, sym, hb, -, rfl⟩ := load_ok_iff.1 h
  exact ⟨hread, buildSymbols_nil_lookup hb, rfl, rfl, rfl, rfl, rfl, rfl, rfl, rfl, rfl, rfl, rfl, rfl, rfl⟩

end

section
/-! The host's operations (50_host_interface.md R162 to R171) and two idioms of programs. -/

namespace Sys2Proof.Machine

variable {s t : State}

/-! ## Reports -/

/-- The report of a step of a running engine says what became of it (50_host_interface.md R164). -/
theorem stepReport_running (h : s.engine = .running) :
    (t.engine = .running → stepReport s t = .stillRunning) ∧ (t.engine = .finished → stepReport s t = .becameFinished) ∧
    (t.engine = .faulted → stepReport s t = .becameFaulted t.fault) := by
  refine ⟨fun ht => ?_, fun ht => ?_, fun ht => ?_⟩ <;> simp [stepReport, h, ht]

/-- The report of a step of an ended engine says how it had ended. -/
theorem stepReport_ended (s t : State) : (s.engine = .finished → stepReport s t = .alreadyFinished) ∧
    (s.engine = .faulted → stepReport s t = .alreadyFaulted) := by
  refine ⟨fun h => ?_, fun h => ?_⟩ <;> simp [stepReport, h]

theorem runReport_eq (t : State) : runReport t = if t.engine = .running then .unreturned else .ended t.engine := by
  cases h : t.engine <;> simp [runReport, h]

theorem regValueOf_eq_elim (o : Option Int) : regValueOf o = o.elim .unset .int := by
  cases o <;> rfl

/-- The read-out of memory gives the line of every cell, in the order of the addresses (50_host_interface.md R169). -/
theorem readMemory_getElem? (v : HostView) {a : Nat} (h : a < Config.memSize) : v.readMemory[a]? = some (v.mem.read a) := by
  simp [HostView.readMemory, List.getElem?_range h]

/-- With a hook the one new entry is what the host reads after the step (44_io.md R141). -/
theorem exec_out_hookCalls {o : Option Int} (hk : s.hook = true) (h : exec (.out o) s = .next t) :
    t.hookCalls = s.hookCalls ++ [t.view] := by
  cases h
  simp [hk]

theorem applyToNone_eq {op : HostOp} (h : ∀ lines init, op ≠ .load lines init ∧ op ≠ .reset lines init) :
    op.applyToNone = (.noEngine, none) := by
  cases op with
  | load lines init => exact absurd rfl (h lines init).1
  | reset lines init => exact absurd rfl (h lines init).2
  | _ => rfl

/-! ## Idioms -/

/-- After a store the cell holds the integer stored, whatever the form of the memory list. -/
theorem cellHolds_of_sto {a : Int} (h : validAddr a = true) :
    ((s.setAr a).writeCell a.toNat (dec s.acc)).advance.CellHolds a s.acc := by
  refine ⟨h, ?_⟩
  rw [State.advance_mem, State.writeCell_mem, Memory.read_write_same _ _ (dec_ne_nil _), dataValue_dec]

end Sys2Proof.Machine

open Sys2Proof Sys2Proof.Machine

/-- Settles O54, move by move. -/
theorem hostMovesBetweenSteps : Obligations.HostMovesBetweenSteps := by
  refine ⟨fun s v w hr => ⟨?_, ?_⟩, fun s v hend => ?_, fun s hr => ?_, fun s hend => ?_, fun lines init s engine h => ?_,
    fun lines init e engine h => ?_, fun lines init engine => ?_⟩
  · simp only [HostOp.apply, HostOp.applyTo, State.hostSetInpr_running hr]; rfl
  · simp only [HostOp.apply, HostOp.applyTo, State.hostSetInpr_running (s := { s with inpr := some v }) hr]; rfl
  · simp only [HostOp.apply, HostOp.applyTo, State.hostSetInpr_ended hend]
  · simp only [HostOp.apply, HostOp.applyTo, State.forceFinish_running hr]; rfl
  · simp only [HostOp.apply, HostOp.applyTo, State.forceFinish_ended hend]
  · cases engine <;> simp [HostOp.apply, HostOp.applyTo, HostOp.applyToNone, h, loadReply]
  · cases engine <;> simp [HostOp.apply, HostOp.applyTo, HostOp.applyToNone, h, loadReply]
  · cases engine <;> rfl

/-- Settles O55, operation by operation. -/
theorem hostStepsRunsAndReads : Obligations.HostStepsRunsAndReads := by
  refine ⟨fun s u h => ?_, fun s u fuel request h => ?_, fun s r h => ?_, fun s fuel request r h => ?_, fun s n v hn => ?_,
    fun s a => ⟨rfl, rfl, rfl⟩, fun s => ?_, fun s u o hk h => ?_, fun op h => ?_⟩
  · refine ⟨stepReport s u, by simp only [HostOp.apply, HostOp.applyTo, h, replyWith], ?_, ?_, ?_, stepReport_ended s u⟩
    · exact fun hr => (stepReport_running hr).1
    · exact fun hr => (stepReport_running hr).2.1
    · exact fun hr => (stepReport_running hr).2.2
  · simp only [HostOp.apply, HostOp.applyTo, h, replyWith, runReport_eq]
  · simp only [HostOp.apply, HostOp.applyTo, h, replyWith]
  · simp only [HostOp.apply, HostOp.applyTo, h, replyWith]
  · rw [← regValueOf_eq_elim, ← regValueOf_eq_elim] at hn
    simp only [List.mem_cons, Prod.mk.injEq, List.not_mem_nil, or_false] at hn
    rcases hn with ⟨rfl, rfl⟩ | ⟨rfl, rfl⟩ | ⟨rfl, rfl⟩ | ⟨rfl, rfl⟩ | ⟨rfl, rfl⟩ | ⟨rfl, rfl⟩ | ⟨rfl, rfl⟩ | ⟨rfl, rfl⟩ <;> rfl
  · exact ⟨s.view.readMemory, rfl, by simp [HostView.readMemory], fun a ha => readMemory_getElem? s.view ha⟩
  · exact ⟨exec_out_hookCalls hk h, fun _ => rfl⟩
  · rw [HostOp.apply, applyToNone_eq h]

/-- Settles O56: the stored cell holds `ACC`, so `LOM` reads it back. -/
theorem storeLoadAndOutputRoundTrip : Obligations.StoreLoadAndOutputRoundTrip := by
  refine ⟨fun s a hv _ => ⟨_, exec_of_effect (.sto hv), exec_of_effect (.lom (cellHolds_of_sto hv))⟩, fun s a v hcell => ?_⟩
  refine ⟨_, _, exec_of_effect (.lom hcell), exec_of_effect .out, by simp, by simp⟩

/-- Settles O57: `LOM` leaves one value in both registers, `MUL` adds it `m - 1` times, and only `LOM`, which writes both, writes
`DR`. -/
theorem lomThenMulMultiplies : Obligations.LomThenMulMultiplies := by
  refine ⟨fun s x y v m hx hy hm => ⟨⟨_, _, exec_of_effect (.lom hx), rfl, rfl, exec_of_effect (.mul hy hm), ?_⟩,
    _, exec_of_effect (.mul hy hm), rfl, ?_⟩, fun s u v hacc hdr h hkeep => by_contra fun hne => ?_⟩
  · simp only [State.advance_acc, State.setAcc_acc, State.advance_dr, State.setAcc_dr, State.setDr_dr]
    ring
  · rintro rfl hdr
    simp only [State.advance_acc, State.setAcc_acc, hdr]
    ring
  · obtain ⟨a, -, -, heq⟩ := drIsWrittenByLomAlone.1 s u h (hdr ▸ hne)
    exact hne (heq ▸ hkeep)

end
